-- ==== Sys2Proof/Word.lean ====
section
/-! DEFINITION. The word types of the FXE block: the 64-bit data word (10_state.md R31, 00_scope.md R7, `W`) and the
16-bit command word (30_encoding.md R60). -/

namespace Sys2Proof

/-- A 64-bit pattern: a fixed-point word, an angle word, a sine magnitude or a binary64 pattern, as the command says
(10_state.md R21, R22, R31; 00_scope.md R12). -/
abbrev Word := BitVec 64

/-- The 16-bit command word `REQ.CMD` (30_encoding.md R60). -/
abbrev CommandWord := BitVec 16

end Sys2Proof
end

