-- ==== Sys2Proof/Syntax.lean ====
section
/-! DEFINITION. The eleven commands (30_encoding.md R63), one constructor per row of spec/opcode_table.json. The operands
`REQ.A` and `REQ.B` are fields of the request, not of the command (R60); the immediate is read here as R61 says. -/

namespace Sys2Proof

/-- The selector of LDC: which word of the space `CONST` (30_encoding.md R61, 20_memory.md R45). -/
inductive ConstName where
  /-- index 0, `TAU_BITS` -/
  | tau
  /-- index 1, `DEG360_BITS` -/
  | deg360
deriving DecidableEq, Repr

/-- The commands of 30_encoding.md R63. `off` is the exponent offset O of R61, a signed integer. -/
inductive Instr where
  | raw
  | f2x (off : Int)
  | x2f (off : Int)
  | mul
  | addw
  | adds
  | sin
  | cos
  | sinf
  | cosf
  | ldc (k : ConstName)
deriving DecidableEq, Repr

/-- Why a command word is reserved (30_encoding.md R66, the kinds (a), (b) and (c)). -/
inductive ReservedKind where
  /-- (a) `op` in 0xB..0xF -/
  | opcode
  /-- (b) `rsv` is not 0 -/
  | reservedBits
  /-- (c) `imm` outside the legal values of R61 -/
  | immediate
deriving DecidableEq, Repr

end Sys2Proof
end

