-- ==== Sys2Proof/WellFormed.lean ====
section
/-! DEFINITION. Which terms of `Instr` a command word can carry (30_encoding.md R61; 93 U17: an offset outside -128..127 is
not expressible). -/

namespace Sys2Proof

/-- The offsets a command can carry: a signed 8-bit immediate (30_encoding.md R61, 00_scope.md R7). -/
def offsetInRange (off : Int) : Bool := decide (-128 ≤ off) && decide (off ≤ 127)

/-- An instruction is well formed when its immediate is a legal value of 30_encoding.md R61. -/
def Instr.wellFormed : Instr → Bool
  | .raw => true
  | .f2x off => offsetInRange off
  | .x2f off => offsetInRange off
  | .mul => true
  | .addw => true
  | .adds => true
  | .sin => true
  | .cos => true
  | .sinf => true
  | .cosf => true
  | .ldc _ => true

end Sys2Proof
end

