-- ==== Sys2Proof/Decode.lean ====
section
/-! DEFINITION. Decoding a command word (30_encoding.md R60 to R66), total on all 65,536 words, a reserved word rejected by
the name of its kind; and, after it, the encoder. The block has no byte order (20_memory.md R47): a command word is one
16-bit value, so nothing is laid out in bytes. -/

namespace Sys2Proof

/-- `op`, bits 15:12 (30_encoding.md R60). -/
def opField (w : CommandWord) : BitVec 4 := w.extractLsb' 12 4

/-- `rsv`, bits 11:8 (R60). -/
def rsvField (w : CommandWord) : BitVec 4 := w.extractLsb' 8 4

/-- `imm`, bits 7:0 (R60). -/
def immField (w : CommandWord) : BitVec 8 := w.extractLsb' 0 8

/-- `off = sext_8(imm)` (R61; `sext_8` is 00_scope.md R9). -/
def readOffset (imm : BitVec 8) : Int := imm.toInt

/-- The reading of `imm` for LDC: 0 and 1 select a constant, anything else is reserved (R61). -/
def readConst (imm : BitVec 8) : Except ReservedKind Instr :=
  if imm = 0 then .ok (.ldc .tau)
  else if imm = 1 then .ok (.ldc .deg360)
  else .error .immediate

/-- The reading of `imm` for a command without one: it must be 0 (R61). -/
def readNone (imm : BitVec 8) (i : Instr) : Except ReservedKind Instr :=
  if imm = 0 then .ok i else .error .immediate

/-- The decode steps of 30_encoding.md R64, in their order: the opcode, then `rsv`, then the immediate. -/
def decode (w : CommandWord) : Except ReservedKind Instr :=
  if 0xB ≤ (opField w).toNat then .error .opcode
  else if rsvField w ≠ 0 then .error .reservedBits
  else
    match (opField w).toNat with
    | 0x0 => readNone (immField w) .raw
    | 0x1 => .ok (.f2x (readOffset (immField w)))
    | 0x2 => .ok (.x2f (readOffset (immField w)))
    | 0x3 => readNone (immField w) .mul
    | 0x4 => readNone (immField w) .addw
    | 0x5 => readNone (immField w) .adds
    | 0x6 => readNone (immField w) .sin
    | 0x7 => readNone (immField w) .cos
    | 0x8 => readNone (immField w) .sinf
    | 0x9 => readNone (immField w) .cosf
    | 0xA => readConst (immField w)
    | _ => .error .opcode

/-- The immediate bits of an instruction (R61): the offset as an 8-bit two's-complement field, the constant's index, or 0. -/
def immBits : Instr → BitVec 8
  | .raw => 0
  | .f2x off => BitVec.ofInt 8 off
  | .x2f off => BitVec.ofInt 8 off
  | .mul => 0
  | .addw => 0
  | .adds => 0
  | .sin => 0
  | .cos => 0
  | .sinf => 0
  | .cosf => 0
  | .ldc .tau => 0
  | .ldc .deg360 => 1

/-- The opcode of an instruction, the column `op` of 30_encoding.md R63. -/
def opBits : Instr → BitVec 4
  | .raw => 0x0
  | .f2x _ => 0x1
  | .x2f _ => 0x2
  | .mul => 0x3
  | .addw => 0x4
  | .adds => 0x5
  | .sin => 0x6
  | .cos => 0x7
  | .sinf => 0x8
  | .cosf => 0x9
  | .ldc _ => 0xA

/-- The command word of an instruction: `{op, rsv = 0, imm}` (R60). -/
def encode (i : Instr) : CommandWord := opBits i ++ (0 : BitVec 4) ++ immBits i

/-- The command word made of `nbits` bits `w` of the opcode table, the bits above them 0. -/
def tableWord (nbits w : Nat) : CommandWord := BitVec.ofNat 16 (w % 2 ^ nbits)

/-- The instruction the decoder reads from a word numbered as spec/opcode_table.json numbers it. Every command is one
16-bit word (30_encoding.md R60), so a longer row is no instruction of this block. -/
def decodeTableWord (nbits w : Nat) : Option Instr :=
  if nbits ≤ 16 then (decode (tableWord nbits w)).toOption else none

end Sys2Proof
end

