-- ==== Sys2Proof/Config.lean ====
section
/-! DEFINITION. What is fixed when a block is built and left open by the spec (00_scope.md R7, kind "parameter"): the
contents of the two read-only spaces. Statements quantify over it; `State.reset` holds the spec's defaults. -/

namespace Sys2Proof

/-- The parameters of the block that a rule reads (00_scope.md R7): the sine table `CURVE` (20_memory.md R42) and
`TAU_BITS` (R45). `LATENCY` is read by no rule (70_reset_and_hazards.md R165) and has no field. `DEG360_BITS` is fixed and
is a constant, `Sys2Proof.Machine.deg360Bits`. -/
structure Config where
  /-- `CURVE[0..255]`, entry i standing for the sine of i/1024 of a rotation. -/
  curve : Vector Word 256
  /-- `TAU_BITS`: τ at offset 3, and the same bits τ/8 at offset 0 (20_memory.md R46). -/
  tauBits : Word
deriving DecidableEq, Repr

/-- The two invariants the spec lets a claim assume of a table (20_memory.md R43): entry 0 is 0, and the entries do not
decrease from index 0 to index 255. A table without them is outside the spec (93 U18): the rules still compute. -/
abbrev Config.Admitted (c : Config) : Prop :=
  c.curve[0] = 0 ∧ ∀ i j : Fin 256, i < j → c.curve[i] ≤ c.curve[j]

end Sys2Proof
end

