-- ==== Sys2Proof/Machine/Rom.lean ====
section
/-! DEFINITION. The two read-only spaces (20_memory.md R40, R41): how they are read, and their default contents (R44, R45).
Both are indexed by word; the index types admit no index outside the spaces, and nothing writes them. -/

namespace Sys2Proof.Machine

/-- Entries 0 to 15 of the default table (20_memory.md R44). -/
def curveRows0 : List Word :=
  [0x0000000000000000, 0x01921F0FE6700711, 0x03243A3F9BD8F08C, 0x04B64DAEF8C3BF4D,
   0x0648557DE8D99F7E, 0x07DA4DCC7473C03F, 0x096C32BACA2AE68B, 0x0AFE00694866A1B4,
   0x0C8FB2F886EC09F3, 0x0E214689606BF167, 0x0FB2B73CFC106FF6, 0x11440134D709B280,
   0x12D52092CE19F5CC, 0x14661179272095AD, 0x15F6D00A9AA418C1, 0x1787586A5D5B2157]

/-- Entries 16 to 31 of the default table (20_memory.md R44). -/
def curveRows1 : List Word :=
  [0x1917A6BC29B42BE1, 0x1AA7B724495C0379, 0x1C3785C79EC2D4F5, 0x1DC70ECBAE9FC912,
   0x1F564E56A9730E34, 0x20E5408F75063A46, 0x2273E19DB5EAED56, 0x24022DA9D8F79D6D,
   0x259020DD1CC27444, 0x271DB7619B1A2773, 0x28AAED62527CB3B5, 0x2A37BF0B2F8BE3F3,
   0x2BC42889167F8CA9, 0x2D502609EC95647C, 0x2EDBB3BCA17E628E, 0x3066CDD138C98B73]

/-- Entries 32 to 47 of the default table (20_memory.md R44). -/
def curveRows2 : List Word :=
  [0x31F17078D34C156C, 0x337B97E5B886CCCB, 0x3505404B6008A13C, 0x368E65DE7ACE44DD,
   0x381704D4FC9EC5F9, 0x399F196625650C48, 0x3B269FCA8A8622BA, 0x3CAD943C203436A3,
   0x3E33F2F642BE355E, 0x3FB9B835BFDBF169, 0x413EE038DFF6B7FD, 0x42C3673F6F6E404E,
   0x4447498AC7D9DD82, 0x45CA835DD945DC91, 0x474D10FD336CF746, 0x48CEEEAF0EEDC599]

/-- Entries 48 to 63 of the default table (20_memory.md R44). -/
def curveRows3 : List Word :=
  [0x4A5018BB567C16A2, 0x4BD08B6BB00E1A8A, 0x4D50430B860546C3, 0x4ECF3BE81052DDF3,
   0x504D72505D98050C, 0x51CAE2955C414EFE, 0x53478909E39DA892, 0x54C36202BCF08E05,
   0x563E69D6AC7F73F8, 0x57B89CDE7A9A4D63, 0x5931F774FC9F1844, 0x5AAA75F71DF85AC7,
   0x5C2214C3E9167ABB, 0x5D98D03C9063D92B, 0x5F0EA4C477339C06, 0x60838EC13AAB0FCD]

/-- Entries 64 to 79 of the default table (20_memory.md R44). -/
def curveRows4 : List Word :=
  [0x61F78A9ABAA58B46, 0x636A94BB2292BF46, 0x64DCA98EF24F5CB4, 0x664DC58506F7FAEA,
   0x67BDE50EA3B628B6, 0x692D049F7A879241, 0x6A9B20ADB4FF262A, 0x6C0835B1FD002450,
   0x6D744027857300AD, 0x6EDF3C8C12F404CF, 0x70492760047B9A7E, 0x71B1FD265C002A41,
   0x7319BA64C711785A, 0x74805BA3A76D6B1B, 0x75E5DD6E1B8E2555, 0x774A3C5207315FC3]

/-- Entries 80 to 95 of the default table (20_memory.md R44). -/
def curveRows5 : List Word :=
  [0x78AD74E01BD8EC78, 0x7A0F83ABE1444F42, 0x7B70654BBDE35622, 0x7CD01658FF419D06,
   0x7E2E936FE26AE7ED, 0x7F8BD92F9C483ED6, 0x80E7E43A61F5B6CB, 0x8242B1357110D372,
   0x839C3CC917FF6CB4, 0x84F483A0BE2F0403, 0x864B826AEC4C74E5, 0x87A135D95473EC89,
   0x88F59AA0DA591421, 0x8A48AD799B6759F3, 0x8B9A6B1EF6DA4502, 0x8CEAD04F95CDBF66]

/-- Entries 96 to 111 of the default table (20_memory.md R44). -/
def curveRows6 : List Word :=
  [0x8E39D9CD73464364, 0x8F87845DE430D777, 0x90D3CCC99F5AC58B, 0x921EAFDCC560F9C5,
   0x93682A66E896F544, 0x94B0393B14E54156, 0x95F6D92FD79F4FBA, 0x973C071F4750B49C,
   0x987FBFE70B81A708, 0x99C200686472B4A8, 0x9B02C58832CF95C0, 0x9C420C2EFF590E5F,
   0x9D7FD1490285C9E3, 0x9EBC11C62C1A1DFB, 0x9FF6CA9A2AB6A26D, 0xA12FF8BC735D8AF6]

/-- Entries 112 to 127 of the default table (20_memory.md R44). -/
def curveRows7 : List Word :=
  [0xA267992848EEB0C0, 0xA39DA8DCC39A38E5, 0xA4D224DCD849C5B0, 0xA6050A2F60002049,
   0xA73655DF1F2F489E, 0xA86604FACD04D969, 0xA99414951AACAE5E, 0xAAC081C4BA89BA8A,
   0xABEB49A46764FD15, 0xAD146952EB9282AF, 0xAE3BDDF3280C620D, 0xAF61A4AC1B83A1DE,
   0xB085BAA8E966F6DA, 0xB1A81D18E0DF4889, 0xB2C8C92F83C1EB87, 0xB3E7BC248D78802E]

/-- Entries 128 to 143 of the default table (20_memory.md R44). -/
def curveRows8 : List Word :=
  [0xB504F333F9DE6484, 0xB6206B9E0C13A892, 0xB73A22A755457448, 0xB8521598BB6BCE26,
   0xB96841BF7FFCB21A, 0xBA7CA46D46946802, 0xBB8F3AF81B93095C, 0xBCA002BA7AAF25EA,
   0xBDAEF913557D76F0, 0xBEBC1B6619ED9116, 0xBFC7671AB8BB84C6, 0xC0D0D99DABD65D44,
   0xC1D8705FFCBB6E90, 0xC2DE28D74AC6628B, 0xC3E2007DD175F5A4, 0xC4E3F4D26EA553B6]

/-- Entries 144 to 159 of the default table (20_memory.md R44). -/
def curveRows9 : List Word :=
  [0xC5E40358A8BA05A7, 0xC6E22998B4C6608E, 0xC7DE651F7CA06749, 0xC8D8B37EA4ED0F62,
   0xC9D1124C931FDA7A, 0xCAC77F24736EB553, 0xCBBBF7A63EBA0DD5, 0xCCAE7976C0691177,
   0xCD9F023F9C3A059E, 0xCE8D8FAF5406AB8B, 0xCF7A1F794D7CA1B1, 0xD064AF55D7C9B43E,
   0xD14D3D02313C0EED, 0xD233C6408CD64236, 0xD31848D817D70E16, 0xD3FAC294FF34E4D0]

/-- Entries 160 to 175 of the default table (20_memory.md R44). -/
def curveRows10 : List Word :=
  [0xD4DB3148750D1819, 0xD5B992C8B606A351, 0xD695E4F10EA88570, 0xD77025A1E0A39D8B,
   0xD84852C0A80FFCDB, 0xD91E6A38009DA15A, 0xD9F269F7AAB88C29, 0xDAC44FF490A02710,
   0xDB941A28CB71EC87, 0xDC61C693A82745D5, 0xDD2D5339AC8692FD, 0xDDF6BE249C075037,
   0xDEBE05637CA94CFB, 0xDF83270A9BBEE890, 0xE046213392AA486C, 0xE106F1FD4B8D7C96]

/-- Entries 176 to 191 of the default table (20_memory.md R44). -/
def curveRows11 : List Word :=
  [0xE1C5978C05ED8691, 0xE28210095B483751, 0xE33C59A4439CD8EC, 0xE3F4729119E798D9,
   0xE4AA5909A08FA7B4, 0xE55E0B4D05C80388, 0xE60F879FE7E2E1E5, 0xE6BECC4C5997AF06,
   0xE76BD7A1E63B9786, 0xE816A7F595EC9232, 0xE8BF3BA1F1AEDFBB, 0xE9659107077CF60F,
   0xEA09A68A6E49CD62, 0xEAAB7A9749F584FE, 0xEB4B0B9E4F345617, 0xEBE85815C767CB00]

/-- Entries 192 to 207 of the default table (20_memory.md R44). -/
def curveRows12 : List Word :=
  [0xEC835E79946A3145, 0xED1C1D4B344C3D4F, 0xEDB29311C504D652, 0xEE46BE5A0813016B,
   0xEED89DB66611E307, 0xEF682FBEF23ECDA6, 0xEFF573116DF1555D, 0xF08066514C055F7E,
   0xF1090827B43725FD, 0xF18F574386712643, 0xF21352595E0BF350, 0xF294F82394FFE320,
   0xF314476247088F74, 0xF3913EDB54BA2242, 0xF40BDD5A6688662F, 0xF48421B0EFBF939B]

/-- Entries 208 to 223 of the default table (20_memory.md R44). -/
def curveRows13 : List Word :=
  [0xF4FA0AB6316ED2EC, 0xF56D97473D446CDA, 0xF5DEC646F85BA1C6, 0xF64D969E1DFC2119,
   0xF6BA073B424B19E8, 0xF7241712D4EDDE49, 0xF78BC51F239E12C6, 0xF7F110605CAF6390,
   0xF853F7DC9186B952, 0xF8B47A9FB902E76C, 0xF91297BBB1D6CDBE, 0xF96E4E4844D4E82A,
   0xF9C79D63272C4628, 0xFA1E842FFC96E4E0, 0xFA7301D859796671, 0xFAC5158BC4F4211F]

/-- Entries 224 to 239 of the default table (20_memory.md R44). -/
def curveRows14 : List Word :=
  [0xFB14BE7FBAE58156, 0xFB61FBEFADDDB985, 0xFBACCD1D0903BB09, 0xFBF5314F31EB7375,
   0xFC3B27D38A5D49AB, 0xFC7EAFFD720ED673, 0xFCBFC926484CD43A, 0xFCFE72AD6D9641F2,
   0xFD3AABF84528B50B, 0xFD747472367DD6C5, 0xFDABCB8CAEBA091B, 0xFDE0B0BF220C2FD4,
   0xFE1323870CFE9A3D, 0xFE432367F5B90A62, 0xFE70AFEB6D33D6A2, 0xFE9BC8A1105C22A5]

/-- Entries 240 to 255 of the default table (20_memory.md R44). -/
def curveRows15 : List Word :=
  [0xFEC46D1E89292CF0, 0xFEEA9CFF8FA2AE54, 0xFF0E57E5EAD848D1, 0xFF2F9D7971CA0364,
   0xFF4E6D680C41D0A9, 0xFF6AC765B39E1E19, 0xFF84AB2C738D6A03, 0xFF9C187C6ABADE6A,
   0xFFB10F1BCB6BEF1D, 0xFFC38ED6DC0EF98B, 0xFFD3977FF7BAE4E9, 0xFFE128EF8E9FC17A,
   0xFFEC4304266865D9, 0xFFF4E5A25A8D095B, 0xFFFB10B4DC96DABB, 0xFFFEC42C7454926B]

/-- The default table, floor(sin(π·i/512) · 2^64) as the spec lists it (20_memory.md R44). -/
def defaultCurve : Vector Word 256 :=
  ⟨(curveRows0 ++ curveRows1 ++ curveRows2 ++ curveRows3 ++ curveRows4 ++ curveRows5 ++ curveRows6 ++ curveRows7
    ++ curveRows8 ++ curveRows9 ++ curveRows10 ++ curveRows11 ++ curveRows12 ++ curveRows13 ++ curveRows14
    ++ curveRows15).toArray, by decide +kernel⟩

/-- The default of `TAU_BITS` (20_memory.md R45). -/
def defaultTauBits : Word := 0xC90FDAA22168C235

/-- `DEG360_BITS`, fixed and exact: 360 at offset 9 (20_memory.md R45). -/
def deg360Bits : Word := 0xB400000000000000

/-- The configuration of the spec's test vectors: the defaults of 20_memory.md R44 and R45. -/
def defaultConfig : Config where
  curve := defaultCurve
  tauBits := defaultTauBits

/-- `CURVE[i]` for the 8-bit index `i` (20_memory.md R41). -/
def curveAt (c : Config) (i : BitVec 8) : Word := c.curve[i.toNat]'i.isLt

/-- `CONST[k]` (20_memory.md R41, R45). -/
def constAt (c : Config) : ConstName → Word
  | .tau => c.tauBits
  | .deg360 => deg360Bits

end Sys2Proof.Machine
end

