-- ==== Sys2Proof/Machine/State.lean ====
section
/-! DEFINITION. The state of the block. It has no mutable architectural state (10_state.md R20): what a step can see is the
read-only configuration, the requests in flight and the responses not yet transferred (R30, R34). -/

namespace Sys2Proof.Machine

/-- One request, the three fields of 10_state.md R21. -/
structure Request where
  /-- `REQ.CMD`, the command word -/
  cmd : CommandWord
  /-- `REQ.A`, the first operand -/
  a : Word
  /-- `REQ.B`, the second operand, read by MUL, ADDW and ADDS only -/
  b : Word
deriving DecidableEq, Repr

/-- One response, the sum of 60_exceptions.md R151: a failed command has no result word. The four fields on the response
port (10_state.md R22) are read from it in Machine/Flags.lean. -/
inductive Response where
  /-- status OK: `RSP.Y`, `RSP.NEG`, `RSP.ONE` -/
  | ok (y : Word) (neg one : Bool)
  /-- status UNREP: the operand of F2X is unrepresentable (R142) -/
  | unrep
  /-- status ILL: the command word is reserved (R143) -/
  | ill
deriving DecidableEq, Repr

/-- Reasons the block can stop with a fault: none. An error is a status in a response and the block goes on
(60_exceptions.md R140, R141, R146), no command can hang (70_reset_and_hazards.md R164); safe, since nothing raises it. -/
inductive Fault where
deriving DecidableEq, Repr

/-- Reasons the model can refuse a command. -/
inductive Refusal where
  /-- Raised by an arm of `exec` that has no meaning yet; no arm is in that case, so nothing raises it. Safe. -/
  | notModelled (mnemonic : String)
deriving DecidableEq, Repr

/-- The state: plain data. -/
structure State where
  /-- The contents of the read-only spaces `CURVE` and `CONST` (20_memory.md R40, R42, R45); no step writes them. -/
  config : Config
  /-- Requests transferred and not yet executed, oldest first (10_state.md R30, R34). -/
  pending : List Request
  /-- Responses produced and not yet transferred, oldest first (10_state.md R23, R30); `rsp_valid` is "not empty". -/
  responses : List Response
deriving DecidableEq, Repr

/-- The block right after reset (10_state.md R34, 70_reset_and_hazards.md R160): no request in flight, no response offered.
The configuration is the spec's default one (20_memory.md R44, R45); reset does not set it. DESIGN CHOICE, log entry 1. -/
def State.reset : State where
  config := defaultConfig
  pending := []
  responses := []

end Sys2Proof.Machine
end

