-- ==== Sys2Proof/Machine/Ops.lean ====
section
/-! DEFINITION. The datapath primitives (40_primitives.md R80 to R87), and the one way a command is answered: take the oldest
request, put its response behind the others (10_state.md R20, R22; 20_memory.md R50). -/

namespace Sys2Proof.Machine

/-- `shl64(v, n) = (v * 2^n) mod 2^64`, for any n (40_primitives.md R80, R82). -/
def shl64 (v : Word) (n : Nat) : Word := v <<< n

/-- `shr64(v, n) = floor(v / 2^n)`, for any n, on 64-bit words and 128-bit products (40_primitives.md R81, R82). -/
def shr64 {w : Nat} (v : BitVec w) (n : Nat) : BitVec w := v >>> n

/-- The leading zeros of `v[k-1:0]` read as a k-bit word: `leadingZeros v 64` is R83's count. -/
def leadingZeros (v : Word) : Nat → Nat
  | 0 => 0
  | k + 1 => if v.getLsbD k then 0 else leadingZeros v k + 1

/-- `clz64(v)`: the consecutive 0 bits from bit 63 down, 64 for v = 0 (40_primitives.md R83). -/
def clz64 (v : Word) : Nat := leadingZeros v 64

/-- `mulwide(a, b)`, the exact 128-bit product (40_primitives.md R84). -/
def mulwide (a b : Word) : BitVec 128 := a.setWidth 128 * b.setWidth 128

/-- `mulhi(a, b) = shr64(mulwide(a, b), 64)`, bits 127:64 of the product (40_primitives.md R84). -/
def mulhi (a b : Word) : Word := (shr64 (mulwide a b) 64).setWidth 64

/-- `neg64(v) = (2^64 - v) mod 2^64` (40_primitives.md R85). -/
def neg64 (v : Word) : Word := -v

/-- `add65(a, b)`, the exact 65-bit sum; bit 64 is the carry out (40_primitives.md R86). -/
def add65 (a b : Word) : BitVec 65 := a.setWidth 65 + b.setWidth 65

/-- Bits 63:0 of the 65-bit sum: the wrapping add of 42_fixed_arith.md R101. -/
def wrapAdd (a b : Word) : Word := (add65 a b).setWidth 64

/-- The sum, replaced by 2^64 - 1 when its bit 64 is set: the saturating add of 42_fixed_arith.md R102, and `sat` of
44_trig.md R120. -/
def satAdd (a b : Word) : Word := if (add65 a b).getLsbD 64 then BitVec.allOnes 64 else (add65 a b).setWidth 64

/-- `sub64(a, b) = a - b`, used with b ≤ a, where it is exact (40_primitives.md R87). -/
def sub64 (a b : Word) : Word := a - b

/-- The statuses a command can raise (60_exceptions.md R140). -/
inductive Raised where
  | unrep
  | ill
deriving DecidableEq, Repr

/-- `raise S`: the command ends with the response of 60_exceptions.md R141. It is no trap: nothing is saved, nothing else
changes. -/
def raise : Raised → Response
  | .unrep => .unrep
  | .ill => .ill

/-- A result with status OK and both flags 0 (00_scope.md R10: a field a rule does not mention is left 0). -/
def plain (y : Word) : Response := .ok y false false

/-- `s` with `q` as its oldest pending request, before all others. -/
def State.withOldest (s : State) (q : Request) : State := { s with pending := q :: s.pending }

/-- `s` with `r` as its newest response, behind all others (20_memory.md R50: responses in request order). -/
def State.withResponse (s : State) (r : Response) : State := { s with responses := s.responses ++ [r] }

/-- Executing a command whose response is `f`: the oldest pending request is answered by `f` of the configuration and of
that request, and nothing else changes (10_state.md R20, 20_memory.md R50). With no request pending there is nothing to
answer and the state stays as it is (DESIGN CHOICE, log entry 5; `step` never asks for that). -/
def command (f : Config → Request → Response) (s : State) : Host.Outcome State Fault Refusal :=
  match s.pending with
  | [] => .next s
  | q :: rest => .next (State.withResponse { s with pending := rest } (f s.config q))

/-- The answer to a reserved command word: raise ILL and go on (30_encoding.md R66, 60_exceptions.md R143). -/
def illegal (s : State) : Host.Outcome State Fault Refusal := command (fun _ _ => raise .ill) s

/-- The request the engine executes next: the oldest one (20_memory.md R50). -/
def State.oldest (s : State) : Option Request := s.pending.head?

/-- The pending requests after the oldest one's command word is set to `w`, its operands kept; with none pending, one
request with both operands 0, as 30_encoding.md R71 sends an omitted operand. -/
def placeCommand (w : CommandWord) : List Request → List Request
  | [] => [{ cmd := w, a := 0, b := 0 }]
  | q :: rest => { q with cmd := w } :: rest

end Sys2Proof.Machine
end

