-- ==== Sys2Proof/Machine/Arith.lean ====
section
/-! DEFINITION. MUL, ADDW and ADDS (42_fixed_arith.md). None depends on the offset of its operands (R103). -/

namespace Sys2Proof.Machine

/-- MUL's response: the upper half of the product (42_fixed_arith.md R100). -/
def mulResponse (_ : Config) (q : Request) : Response := plain (mulhi q.a q.b)

/-- ADDW's response: the sum modulo 2^64 (42_fixed_arith.md R101). -/
def addwResponse (_ : Config) (q : Request) : Response := plain (wrapAdd q.a q.b)

/-- ADDS's response: the clamped sum (42_fixed_arith.md R102). -/
def addsResponse (_ : Config) (q : Request) : Response := plain (satAdd q.a q.b)

/-- MUL (42_fixed_arith.md R100). -/
def execMul (s : State) : Host.Outcome State Fault Refusal := command mulResponse s

/-- ADDW (42_fixed_arith.md R101). -/
def execAddw (s : State) : Host.Outcome State Fault Refusal := command addwResponse s

/-- ADDS (42_fixed_arith.md R102). -/
def execAdds (s : State) : Host.Outcome State Fault Refusal := command addsResponse s

end Sys2Proof.Machine
end

