-- ==== Sys2Proof/Machine/Constants.lean ====
section
/-! DEFINITION. LDC (43_constants.md). -/

namespace Sys2Proof.Machine

/-- LDC's response: `CONST[k]` (43_constants.md R110). -/
def ldcResponse (k : ConstName) (c : Config) (_ : Request) : Response := plain (constAt c k)

/-- LDC (43_constants.md R110). -/
def execLdc (k : ConstName) (s : State) : Host.Outcome State Fault Refusal := command (ldcResponse k) s

end Sys2Proof.Machine
end

