-- ==== Sys2Proof/Machine/Operands.lean ====
section
/-! DEFINITION. The readings of an operand word (30_encoding.md R62): a binary64 pattern (00_scope.md R12) and an angle word
(10_state.md R32). A fixed-point word is read as it stands (10_state.md R31). -/

namespace Sys2Proof.Machine

/-- Bit 63: the sign of a float and the half-turn bit of an angle word. -/
def signBit (v : Word) : Bool := v.getLsbD 63

/-- The biased exponent `e`, bits 62:52 (00_scope.md R12). -/
def expField (f : Word) : BitVec 11 := f.extractLsb' 52 11

/-- The fraction `t`, bits 51:0 (00_scope.md R12). -/
def fracField (f : Word) : BitVec 52 := f.extractLsb' 0 52

/-- The kinds of binary64 pattern (00_scope.md R12). -/
inductive FloatClass where
  | zero
  | subnormal
  | normal
  | infinite
  | nan
deriving DecidableEq, Repr

/-- The classification of a pattern by its exponent and fraction (00_scope.md R12). -/
def floatClass (f : Word) : FloatClass :=
  if expField f = 0 then (if fracField f = 0 then .zero else .subnormal)
  else if expField f = 2047 then (if fracField f = 0 then .infinite else .nan)
  else .normal

/-- The 53-bit significand `m = 2^52 + t` of a normal float (41_fixed_convert.md R91). -/
def significand (f : Word) : Word := BitVec.ofNat 64 (2 ^ 52 + (fracField f).toNat)

/-- The pattern `{s, e, t}` (00_scope.md R12). -/
def packFloat (s : Bool) (e : BitVec 11) (t : BitVec 52) : Word := BitVec.ofBool s ++ e ++ t

/-- The quarter-turn pattern 2^62 (00_scope.md R13). -/
def quarterTurn : Word := 0x4000000000000000

/-- The half-turn pattern 2^63 (00_scope.md R13). -/
def halfTurn : Word := 0x8000000000000000

/-- `r = x[62:0]`, the part of an angle word below the half-turn bit (44_trig.md R116). -/
def belowHalf (x : Word) : Word := (x.extractLsb' 0 63).setWidth 64

end Sys2Proof.Machine
end

