-- ==== Sys2Proof/Machine/Convert.lean ====
section
/-! DEFINITION. RAW and the two converters F2X and X2F (41_fixed_convert.md). -/

namespace Sys2Proof.Machine

/-- `sh = e - 1023 + 12 - off` (41_fixed_convert.md R91). -/
def f2xShift (off : Int) (f : Word) : Int := (expField f).toNat - 1023 + 12 - off

/-- A shift left by `sh` when `sh ≥ 0`, right by `-sh` otherwise (41_fixed_convert.md R91). -/
def shiftBy (m : Word) (sh : Int) : Word := if 0 ≤ sh then shl64 m sh.toNat else shr64 m (-sh).toNat

/-- `mag`, the magnitude of a normal float at offset `off` (41_fixed_convert.md R91). -/
def f2xMagnitude (off : Int) (f : Word) : Word := shiftBy (significand f) (f2xShift off f)

/-- `f2x(off, f)`: the response of the float-to-fixed converter (41_fixed_convert.md R91). -/
def f2x (off : Int) (f : Word) : Response :=
  match floatClass f with
  | .zero => plain 0
  | .subnormal => raise .unrep
  | .infinite => raise .unrep
  | .nan => raise .unrep
  | .normal => plain (if signBit f then neg64 (f2xMagnitude off f) else f2xMagnitude off f)

/-- `x2f(off, a)`: the binary64 pattern of a fixed-point word, truncated (41_fixed_convert.md R92). -/
def x2f (off : Int) (a : Word) : Word :=
  if a = 0 then 0
  else packFloat false (BitVec.ofInt 11 (1023 + off - 1 - clz64 a)) ((shl64 a (clz64 a)).extractLsb' 11 52)

/-- RAW's response (41_fixed_convert.md R90). -/
def rawResponse (_ : Config) (q : Request) : Response := plain q.a

/-- F2X's response (41_fixed_convert.md R91). -/
def f2xResponse (off : Int) (_ : Config) (q : Request) : Response := f2x off q.a

/-- X2F's response (41_fixed_convert.md R92). -/
def x2fResponse (off : Int) (_ : Config) (q : Request) : Response := plain (x2f off q.a)

/-- RAW (41_fixed_convert.md R90). -/
def execRaw (s : State) : Host.Outcome State Fault Refusal := command rawResponse s

/-- F2X (41_fixed_convert.md R91). -/
def execF2x (off : Int) (s : State) : Host.Outcome State Fault Refusal := command (f2xResponse off) s

/-- X2F (41_fixed_convert.md R92). -/
def execX2f (off : Int) (s : State) : Host.Outcome State Fault Refusal := command (x2fResponse off) s

end Sys2Proof.Machine
end

