-- ==== Sys2Proof/Machine/Trig.lean ====
section
/-! DEFINITION. The sine evaluator and SIN, COS, SINF, COSF (44_trig.md). -/

namespace Sys2Proof.Machine

/-- What the evaluator returns (44_trig.md R115): the sign tag, the "exactly 1" sentinel and the magnitude, read as
10_state.md R33 says. -/
structure Sine where
  neg : Bool
  one : Bool
  mag : Word
deriving DecidableEq, Repr

/-- `reflect(r)`, step 2: the first quadrant unchanged, the second mirrored (44_trig.md R117). -/
def reflect (r : Word) : Word := if r < quarterTurn then r else sub64 halfTurn r

/-- `idx = q[61:54]` (44_trig.md R118). -/
def coarseIndex (q : Word) : BitVec 8 := q.extractLsb' 54 8

/-- `eps = q[53:0]` (44_trig.md R118). -/
def epsilon (q : Word) : BitVec 54 := q.extractLsb' 0 54

/-- `radians(eps)`: epsilon in radians as a FixedPoint<0> word (44_trig.md R119). -/
def radians (c : Config) (eps : BitVec 54) : Word := mulhi (shl64 (eps.setWidth 64) 3) (constAt c .tau)

/-- The mirrored index `256 - idx`, used with idx ≠ 0 only, where it lies in 1..255 (44_trig.md R120, 20_memory.md R53). -/
def mirror (idx : BitVec 8) : BitVec 8 := BitVec.ofNat 8 (256 - idx.toNat)

/-- `correct(idx, b)`: table lookup and linear correction, with the bypass at idx = 0 (44_trig.md R120). -/
def correct (c : Config) (idx : BitVec 8) (b : Word) : Word :=
  if idx = 0 then b else satAdd (curveAt c idx) (mulhi (curveAt c (mirror idx)) b)

/-- The magnitude of the sine of a quarter-range angle: steps 3 and 4 (44_trig.md R118 to R120). -/
def quarterSine (c : Config) (q : Word) : Word := correct c (coarseIndex q) (radians c (epsilon q))

/-- `sincore(x)`: the sine of an angle word (44_trig.md R115 to R117). -/
def sincore (c : Config) (x : Word) : Sine :=
  if belowHalf x = quarterTurn then { neg := signBit x, one := true, mag := 0 }
  else { neg := signBit x, one := false, mag := quarterSine c (reflect (belowHalf x)) }

/-- The word of a float with its sign bit replaced: `{neg, f[62:0]}` (44_trig.md R125). -/
def withSign (neg : Bool) (f : Word) : Word := BitVec.ofBool neg ++ f.extractLsb' 0 63

/-- `sm2f(neg, one, mag)`: step 5, the result as a binary64 pattern (44_trig.md R125). -/
def sm2f (r : Sine) : Word := withSign r.neg (if r.one then 0x3FF0000000000000 else x2f 0 r.mag)

/-- The angle a quarter turn further, modulo one rotation (44_trig.md R122). -/
def advance (x : Word) : Word := wrapAdd x quarterTurn

/-- A sine as a magnitude response (44_trig.md R121). -/
def magnitudeResponse (r : Sine) : Response := .ok r.mag r.neg r.one

/-- A sine as a float response; NEG and ONE are reported too (44_trig.md R123). -/
def floatResponse (r : Sine) : Response := .ok (sm2f r) r.neg r.one

/-- SIN's response (44_trig.md R121). -/
def sinResponse (c : Config) (q : Request) : Response := magnitudeResponse (sincore c q.a)

/-- COS's response (44_trig.md R122). -/
def cosResponse (c : Config) (q : Request) : Response := magnitudeResponse (sincore c (advance q.a))

/-- SINF's response (44_trig.md R123). -/
def sinfResponse (c : Config) (q : Request) : Response := floatResponse (sincore c q.a)

/-- COSF's response (44_trig.md R124). -/
def cosfResponse (c : Config) (q : Request) : Response := floatResponse (sincore c (advance q.a))

/-- SIN (44_trig.md R121). -/
def execSin (s : State) : Host.Outcome State Fault Refusal := command sinResponse s

/-- COS (44_trig.md R122). -/
def execCos (s : State) : Host.Outcome State Fault Refusal := command cosResponse s

/-- SINF (44_trig.md R123). -/
def execSinf (s : State) : Host.Outcome State Fault Refusal := command sinfResponse s

/-- COSF (44_trig.md R124). -/
def execCosf (s : State) : Host.Outcome State Fault Refusal := command cosfResponse s

end Sys2Proof.Machine
end

