-- ==== Sys2Proof/Machine/Dispatch.lean ====
section
/-! DEFINITION. The dispatch of 30_encoding.md R64: one arm per command, each a direct call of its meaning. -/

namespace Sys2Proof.Machine

def exec (i : Instr) (s : State) : Host.Outcome State Fault Refusal :=
  match i with
  | .raw => Sys2Proof.Machine.execRaw s
  | .f2x off => Sys2Proof.Machine.execF2x off s
  | .x2f off => Sys2Proof.Machine.execX2f off s
  | .mul => Sys2Proof.Machine.execMul s
  | .addw => Sys2Proof.Machine.execAddw s
  | .adds => Sys2Proof.Machine.execAdds s
  | .sin => Sys2Proof.Machine.execSin s
  | .cos => Sys2Proof.Machine.execCos s
  | .sinf => Sys2Proof.Machine.execSinf s
  | .cosf => Sys2Proof.Machine.execCosf s
  | .ldc k => Sys2Proof.Machine.execLdc k s

end Sys2Proof.Machine
end

