-- ==== Sys2Proof/Machine/Step.lean ====
section
/-! DEFINITION. One turn of the engine: it answers the oldest request in flight (20_memory.md R50, 70_reset_and_hazards.md
R164). -/

namespace Sys2Proof.Machine

/-- One turn of the engine (30_encoding.md R64): the oldest request's command word is decoded and executed, or answered ILL
when it is reserved; with no request in flight the block is idle and nothing changes (60_exceptions.md R149). -/
def step (s : State) : Host.Outcome State Fault Refusal :=
  match s.oldest with
  | none => .next s
  | some q =>
    match decode q.cmd with
    | .ok i => exec i s
    | .error _ => illegal s

/-- `s` with the command word of table bits `w` placed where `step` takes its next one from: in the oldest pending request,
whose operands stay; with none pending, in a new request with both operands 0. Log entry 6. -/
def State.withFetchWord (s : State) (nbits w : Nat) : State :=
  { s with pending := placeCommand (tableWord nbits w) s.pending }

end Sys2Proof.Machine
end

