-- ==== Sys2Proof/Machine/Flags.lean ====
section
/-! DEFINITION. The flags of a response and its four port fields (10_state.md R22, R26; 60_exceptions.md R140, R141). -/

namespace Sys2Proof.Machine

/-- The status names of 60_exceptions.md R140; code 3 is never produced and has no name. -/
inductive Status where
  | ok
  | unrep
  | ill
deriving DecidableEq, Repr

/-- The 2-bit code of a status (60_exceptions.md R140). -/
def Status.code : Status → BitVec 2
  | .ok => 0
  | .unrep => 1
  | .ill => 2

/-- `RSP.ST` by name. -/
def Response.status : Response → Status
  | .ok _ _ _ => .ok
  | .unrep => .unrep
  | .ill => .ill

/-- `RSP.Y` on the port: 0 whenever the status is not OK (10_state.md R22, 60_exceptions.md R141). -/
def Response.y : Response → Word
  | .ok y _ _ => y
  | .unrep => 0
  | .ill => 0

/-- `RSP.NEG` on the port: 0 whenever the status is not OK (60_exceptions.md R141). -/
def Response.neg : Response → Bool
  | .ok _ neg _ => neg
  | .unrep => false
  | .ill => false

/-- `RSP.ONE` on the port: 0 whenever the status is not OK (60_exceptions.md R141). -/
def Response.one : Response → Bool
  | .ok _ _ one => one
  | .unrep => false
  | .ill => false

/-- The bundle `rsp_fl = {ONE, NEG, ST[1:0]}` (10_state.md R22). -/
def Response.fl (r : Response) : BitVec 4 := BitVec.ofBool r.one ++ BitVec.ofBool r.neg ++ r.status.code

end Sys2Proof.Machine
end

