-- ==== Sys2Proof/Machine/Respond.lean ====
section
/-! DEFINITION. The block as the pure function of 10_state.md R20, `exec : Config -> Request -> Response`: the response to a
request, with no state at all. The engine's `step` is to refine it; the two are related by statements, not by definition. -/

namespace Sys2Proof.Machine

/-- The response of a command to a request (30_encoding.md R64, the `case op of` part). -/
def responseOf : Instr → Config → Request → Response
  | .raw => rawResponse
  | .f2x off => f2xResponse off
  | .x2f off => x2fResponse off
  | .mul => mulResponse
  | .addw => addwResponse
  | .adds => addsResponse
  | .sin => sinResponse
  | .cos => cosResponse
  | .sinf => sinfResponse
  | .cosf => cosfResponse
  | .ldc k => ldcResponse k

/-- `exec(REQ)` of 30_encoding.md R64: decode, then the command's response, or ILL. -/
def respond (c : Config) (q : Request) : Response :=
  match decode q.cmd with
  | .ok i => responseOf i c q
  | .error _ => raise .ill

end Sys2Proof.Machine
end

