-- ==== Sys2Proof/Machine/HostPort.lean ====
section
/-! DEFINITION. What the host can do to the block (60_exceptions.md R150): transfer a request, take a response, assert reset;
and a session, in which these moves and the engine's turns come in any order (10_state.md R23, 20_memory.md R50,
70_reset_and_hazards.md R160, R167). The order of moves is the host's and the clock's, so a session takes it as data. -/

namespace Sys2Proof.Machine

/-- A request is transferred: it queues behind those in flight (10_state.md R23). -/
def State.request (s : State) (q : Request) : State := { s with pending := s.pending ++ [q] }

/-- The oldest response, and the block after its transfer (10_state.md R23); none when no response is offered
(`rsp_valid` = 0). -/
def State.take (s : State) : Option (Response × State) :=
  match s.responses with
  | [] => none
  | r :: rest => some (r, { s with responses := rest })

/-- `rst` is asserted (70_reset_and_hazards.md R160): no response is offered any more, every request not yet answered is
discarded, the read-only spaces stay. Log entry 7. -/
def State.assertReset (s : State) : State := { s with pending := [], responses := [] }

/-- One event at the block. -/
inductive Move where
  /-- the host transfers a request -/
  | request (q : Request)
  /-- the host transfers a response out, if one is offered -/
  | take
  /-- the engine takes one turn -/
  | work
  /-- the host asserts `rst` -/
  | reset
deriving DecidableEq, Repr

/-- The block with what has passed its ports since the last reset, for stating 20_memory.md R50(b). -/
structure Session where
  /-- the block -/
  block : State
  /-- the requests transferred since the last reset, oldest first -/
  issued : List Request
  /-- the responses transferred since the last reset, oldest first -/
  taken : List Response
deriving DecidableEq, Repr

/-- The block after one turn of the engine. A turn that ends in a fault or a refusal would leave it as it was; no turn does. -/
def State.afterTurn (s : State) : State :=
  match step s with
  | .next t => t
  | .fault _ => s
  | .refused _ => s

/-- A session after one move. -/
def Session.move (h : Session) : Move → Session
  | .request q => { h with block := h.block.request q, issued := h.issued ++ [q] }
  | .take =>
    match h.block.take with
    | none => h
    | some (r, t) => { h with block := t, taken := h.taken ++ [r] }
  | .work => { h with block := h.block.afterTurn }
  | .reset => { block := h.block.assertReset, issued := [], taken := [] }

/-- A session after a list of moves, first to last. -/
def Session.run (h : Session) : List Move → Session
  | [] => h
  | m :: ms => (h.move m).run ms

/-- A block right after reset with configuration `c`, nothing transferred yet. -/
def Session.start (c : Config) : Session where
  block := { State.reset with config := c }
  issued := []
  taken := []

end Sys2Proof.Machine
end

