-- ==== Sys2Proof/Machine/HostProgram.lean ====
section
/-! DEFINITION. The host's notation (30_encoding.md R71): lines whose operands are literals or host temporaries, the request a
line stands for, a program run line by line against the block, and the pseudo-commands of R72. All of it is bookkeeping of the
host (10_state.md R24, R25): the block keeps none of it. -/

namespace Sys2Proof.Machine

/-- An operand of a line (30_encoding.md R71). -/
inductive Source where
  /-- left out: sent as 0 -/
  | omitted
  /-- a 64-bit literal -/
  | literal (v : Word)
  /-- the host temporary of that number -/
  | temp (n : Nat)
deriving DecidableEq, Repr

/-- A line `[dst [, flags] =] MNEMONIC [imm ,] [srcA [, srcB]]` (30_encoding.md R71); temporaries are numbered. -/
structure Line where
  dst : Option Nat
  flags : Option Nat
  instr : Instr
  srcA : Source
  srcB : Source
deriving DecidableEq, Repr

/-- The host's temporaries: the newest value of a number comes first. -/
abbrev Temps := List (Nat × Word)

/-- The word a source stands for; none for a temporary that no earlier line assigned (DESIGN CHOICE, log entry 8). -/
def Source.word (temps : Temps) : Source → Option Word
  | .omitted => some 0
  | .literal v => some v
  | .temp n => temps.lookup n

/-- The request of a line: the triple `CMD:A:B` (30_encoding.md R71); none for an ill-formed instruction. -/
def assemble (temps : Temps) (l : Line) : Option Request :=
  match l.instr.wellFormed, l.srcA.word temps, l.srcB.word temps with
  | true, some a, some b => some { cmd := encode l.instr, a := a, b := b }
  | _, _, _ => none

/-- Giving a value to a temporary that a line may name. -/
def assign (temps : Temps) (n : Option Nat) (v : Word) : Temps :=
  match n with
  | none => temps
  | some k => (k, v) :: temps

/-- One request sent to the block and its response taken: the host transfers the request, the engine takes a turn, the host
transfers the response out. -/
def exchange (s : State) (q : Request) : Option (Response × State) := (s.request q).afterTurn.take

/-- A line run against the block: `dst` receives `RSP.Y` and `flags` receives `rsp_fl` (30_encoding.md R71). The spec does
not say what a temporary named by both keeps: `flags` is assigned after `dst` here, so it keeps `rsp_fl`. DESIGN CHOICE, log
entry 14. -/
def runLine (l : Line) (temps : Temps) (s : State) : Option (Temps × State) :=
  match assemble temps l with
  | none => none
  | some q =>
    match exchange s q with
    | none => none
    | some (r, t) => some (assign (assign temps l.dst r.y) l.flags (r.fl.setWidth 64), t)

/-- A program run line by line, each request sent after the responses before it are taken (70_reset_and_hazards.md R167). -/
def runLines : List Line → Temps → State → Option (Temps × State)
  | [], temps, s => some (temps, s)
  | l :: ls, temps, s =>
    match runLine l temps s with
    | none => none
    | some (temps', t) => runLines ls temps' t

/-- `FROMROT y = f`: `y, fl = F2X 0, f` (30_encoding.md R72). -/
def fromRot (y fl : Nat) (f : Source) : List Line :=
  [{ dst := some y, flags := some fl, instr := .f2x 0, srcA := f, srcB := .omitted }]

/-- `ASROT y = x`: `y = X2F 0, x` (30_encoding.md R72). -/
def asRot (y : Nat) (x : Source) : List Line :=
  [{ dst := some y, flags := none, instr := .x2f 0, srcA := x, srcB := .omitted }]

/-- `ASRAD y = x`: `t1 = LDC TAU; t2 = MUL t1, x; y = X2F 3, t2` (30_encoding.md R72). -/
def asRad (y t1 t2 : Nat) (x : Source) : List Line :=
  [{ dst := some t1, flags := none, instr := .ldc .tau, srcA := .omitted, srcB := .omitted },
   { dst := some t2, flags := none, instr := .mul, srcA := .temp t1, srcB := x },
   { dst := some y, flags := none, instr := .x2f 3, srcA := .temp t2, srcB := .omitted }]

/-- `ASDEG y = x`: `t1 = LDC DEG360; t2 = MUL t1, x; y = X2F 9, t2` (30_encoding.md R72). -/
def asDeg (y t1 t2 : Nat) (x : Source) : List Line :=
  [{ dst := some t1, flags := none, instr := .ldc .deg360, srcA := .omitted, srcB := .omitted },
   { dst := some t2, flags := none, instr := .mul, srcA := .temp t1, srcB := x },
   { dst := some y, flags := none, instr := .x2f 9, srcA := .temp t2, srcB := .omitted }]

/-- `NOP`: `RAW 0x0000000000000000` (30_encoding.md R72). -/
def nop : List Line :=
  [{ dst := none, flags := none, instr := .raw, srcA := .literal 0, srcB := .omitted }]

end Sys2Proof.Machine
end

