-- ==== Sys2Proof/Machine/Reference.lean ====
section
/-! DEFINITION. The pseudocode of the converters and of the sine evaluator over unbounded integers, as the rules print it
(00_scope.md R9: nothing overflows, `mod 2^64` is written where a value narrows), and the rational number a word stands for
(R11, R12). Statements compare the datapath of Convert.lean and Trig.lean with it; no meaning calls it. -/

namespace Sys2Proof.Machine

/-- `f2x(off, f)` of 41_fixed_convert.md R91 on a pattern read as a number; none is UNREP. -/
def refF2x (off : Int) (f : Nat) : Option Nat :=
  let s : Nat := f / 2 ^ 63
  let e : Nat := f / 2 ^ 52 % 2 ^ 11
  let t : Nat := f % 2 ^ 52
  if e = 0 ∧ t = 0 then some 0
  else if e = 0 ∨ e = 2047 then none
  else
    let m : Nat := 2 ^ 52 + t
    let sh : Int := (e : Int) - 1023 + 12 - off
    let mag := if 0 ≤ sh then m * 2 ^ sh.toNat % 2 ^ 64 else m / 2 ^ (-sh).toNat
    some (if s = 0 then mag else (2 ^ 64 - mag) % 2 ^ 64)

/-- `x2f(off, a)` of 41_fixed_convert.md R92 on a word read as a number; the leading zeros are counted from the position of
the most significant 1 bit (40_primitives.md R83). -/
def refX2f (off : Int) (a : Nat) : Nat :=
  if a = 0 then 0
  else
    let lz : Nat := 63 - Nat.log2 a
    let n := a * 2 ^ lz % 2 ^ 64
    let frac := n / 2 ^ 11 % 2 ^ 52
    let exp : Int := 1023 + off - 1 - (lz : Int)
    (exp % 2 ^ 11).toNat * 2 ^ 52 + frac

/-- `CURVE[i]` as a number, for an index 0..255. -/
def refCurve (c : Config) (i : Nat) : Nat := (c.curve[i]?.getD 0).toNat

/-- `correct(idx, b)` of 44_trig.md R120 on numbers. -/
def refCorrect (c : Config) (idx b : Nat) : Nat :=
  if idx = 0 then b
  else min (refCurve c idx + refCurve c (256 - idx) * b / 2 ^ 64) (2 ^ 64 - 1)

/-- `sincore(x)` of 44_trig.md R115 to R120 on an angle word read as a number: (neg, one, mag). -/
def refSine (c : Config) (x : Nat) : Bool × Bool × Nat :=
  let neg := decide (x / 2 ^ 63 = 1)
  let r := x % 2 ^ 63
  if r = 2 ^ 62 then (neg, true, 0)
  else
    let q := if r < 2 ^ 62 then r else 2 ^ 63 - r
    let idx := q / 2 ^ 54
    let eps := q % 2 ^ 54
    let b := eps * 8 * c.tauBits.toNat / 2 ^ 64
    (neg, false, refCorrect c idx b)

/-- `sm2f(neg, one, mag)` of 44_trig.md R125 on numbers. -/
def refSm2f (r : Bool × Bool × Nat) : Nat :=
  (if r.1 then 2 ^ 63 else 0) + (if r.2.1 then 0x3FF0000000000000 else refX2f 0 r.2.2) % 2 ^ 63

/-- `val_O(bits) = bits * 2^(O-64)` (00_scope.md R11). -/
def fixedValue (off : Int) (v : Word) : ℚ := v.toNat * 2 ^ (off - 64)

/-- `|v| = (2^52 + t) * 2^(e - 1075)`, the absolute value of a normal float (00_scope.md R12). -/
def normalMagnitude (f : Word) : ℚ := (2 ^ 52 + (fracField f).toNat) * 2 ^ (((expField f).toNat : Int) - 1075)

end Sys2Proof.Machine
end

