-- ==== Sys2Proof/Safety.lean ====
section
/-! DEFINITION. What a claim may rely on: which responses carry a result (60_exceptions.md R151), what every response obeys,
the invariant of the machine, and its pure-function reading (10_state.md R20). -/

namespace Sys2Proof.Machine

/-- A response a claim may take a value from: its status is OK (60_exceptions.md R141, R151). -/
def Response.usable (r : Response) : Bool := r.status == .ok

/-- What every response of the block obeys (10_state.md R33; 44_trig.md R117, R125): when the sentinel `ONE` is set, `Y` is
0, the magnitude form, or the float 1.0 with the sign `NEG`, the float form. -/
abbrev Response.Sound (r : Response) : Prop :=
  r.one = true → r.y = 0 ∨ r.y = if r.neg then 0xBFF0000000000000 else 0x3FF0000000000000

/-- The invariant of the machine: the table keeps the two invariants of 20_memory.md R43, and every response not yet
transferred is sound. -/
def State.Inv (s : State) : Prop := s.config.Admitted ∧ ∀ r ∈ s.responses, r.Sound

/-- A safe run, in the terms of 60_exceptions.md R151: every response still to be transferred has status OK. -/
def State.allUsable (s : State) : Bool := s.responses.all Response.usable

/-- No request in flight and no response offered: the block between requests (60_exceptions.md R149). -/
def State.Quiet (s : State) : Prop := s.pending = [] ∧ s.responses = []

end Sys2Proof.Machine
end

