-- ==== Sys2Proof/Certificates/Slice0/Obligations.lean ====
section
/-! DEFINITION. The statements for the provers. `s.withOldest q` is `s` with request `q` before its pending ones, so a
statement about it covers every state with a request in flight; the next state `s.withResponse r` has that request gone, `r`
behind the responses of `s`, and everything else as in `s`: the frame is part of the equation. -/

open Sys2Proof Sys2Proof.Machine

/-! ### Encoding and dispatch -/

/-- 30_encoding.md R63: `match` and `mask` of every row select exactly the words that decode to the row's command, and 522
words of 65,536 are legal. -/
def Obligations.OpcodeRowsSelectTheirCommands : Prop :=
  (∀ w : CommandWord,
    (w &&& 0xFFFF = 0x0000 ↔ decode w = .ok .raw) ∧
    (w &&& 0xFF00 = 0x1000 ↔ ∃ off, decode w = .ok (.f2x off)) ∧
    (w &&& 0xFF00 = 0x2000 ↔ ∃ off, decode w = .ok (.x2f off)) ∧
    (w &&& 0xFFFF = 0x3000 ↔ decode w = .ok .mul) ∧
    (w &&& 0xFFFF = 0x4000 ↔ decode w = .ok .addw) ∧
    (w &&& 0xFFFF = 0x5000 ↔ decode w = .ok .adds) ∧
    (w &&& 0xFFFF = 0x6000 ↔ decode w = .ok .sin) ∧
    (w &&& 0xFFFF = 0x7000 ↔ decode w = .ok .cos) ∧
    (w &&& 0xFFFF = 0x8000 ↔ decode w = .ok .sinf) ∧
    (w &&& 0xFFFF = 0x9000 ↔ decode w = .ok .cosf) ∧
    (w &&& 0xFFFE = 0xA000 ↔ ∃ k, decode w = .ok (.ldc k))) ∧
  (List.range 65536).countP (fun n => (decode (BitVec.ofNat 16 n)).toOption.isSome) = 522

/-- 30_encoding.md R61: how the immediate is read, for every value of it. -/
def Obligations.ImmediateIsReadByItsOpcode : Prop :=
  ∀ n : Nat, n < 256 →
    decode (BitVec.ofNat 16 (0x1000 + n)) = .ok (.f2x (if n < 128 then (n : Int) else n - 256)) ∧
    decode (BitVec.ofNat 16 (0x2000 + n)) = .ok (.x2f (if n < 128 then (n : Int) else n - 256)) ∧
    decode (BitVec.ofNat 16 (0xA000 + n)) =
      (if n = 0 then .ok (.ldc .tau) else if n = 1 then .ok (.ldc .deg360) else .error .immediate) ∧
    ∀ p ∈ [(0x0, Instr.raw), (0x3, .mul), (0x4, .addw), (0x5, .adds), (0x6, .sin), (0x7, .cos), (0x8, .sinf), (0x9, .cosf)],
      decode (BitVec.ofNat 16 (p.1 * 0x1000 + n)) = if n = 0 then .ok p.2 else .error .immediate

/-- An inference the spec marks as its own (30_encoding.md R65): a word is legal exactly when op ≤ 0xA, rsv = 0 and imm is a
legal value for the opcode. -/
def Obligations.LegalWordsAreThoseWithLegalFields : Prop :=
  ∀ w : CommandWord, (∃ i, decode w = .ok i) ↔
    w.toNat / 4096 ≤ 10 ∧ w.toNat / 256 % 16 = 0 ∧
    (w.toNat / 4096 = 1 ∨ w.toNat / 4096 = 2 ∨ (w.toNat / 4096 = 10 ∧ w.toNat % 256 ≤ 1) ∨ w.toNat % 256 = 0)

/-- 30_encoding.md R66: the three kinds of reserved word are all the words that are no command; such a word is answered with
status ILL and Y, NEG, ONE all 0, whatever the operands, the configuration and the requests behind it, and the block goes on
to the next request. -/
def Obligations.ReservedWordsAnswerIll : Prop :=
  ∀ (s : State) (q : Request),
    let op := q.cmd.toNat / 4096
    let rsv := q.cmd.toNat / 256 % 16
    let imm := q.cmd.toNat % 256
    let reserved := 11 ≤ op ∨ rsv ≠ 0 ∨ (imm ≠ 0 ∧ (op = 0 ∨ (3 ≤ op ∧ op ≤ 9))) ∨ (2 ≤ imm ∧ op = 10)
    (reserved ↔ ∀ i, decode q.cmd ≠ .ok i) ∧
    (reserved → step (s.withOldest q) = .next (s.withResponse .ill)) ∧
    Response.ill.status.code = 2 ∧ Response.ill.y = 0 ∧ Response.ill.neg = false ∧ Response.ill.one = false

/-- Decoding the word of any well-formed command gives the command back, every offset -128..127 and both constants. -/
def Obligations.DecodeOfEncodeIsTheCommand : Prop :=
  ∀ i : Instr, i.wellFormed = true → decode (encode i) = .ok i

/-- Every legal word is the word of the command it decodes to, and that command is well formed: no two words share one. -/
def Obligations.EncodeOfDecodeIsTheWord : Prop :=
  ∀ (w : CommandWord) (i : Instr), decode w = .ok i → i.wellFormed = true ∧ encode i = w

/-- Words written out bit by bit from the column `encoding` of the opcode map, one for each command and the end values of the
immediates. -/
def Obligations.WrittenOutWordsDecodeToTheirCommands : Prop :=
  decode 0b0000000000000000 = .ok .raw ∧
  decode 0b0001000000000011 = .ok (.f2x 3) ∧
  decode 0b0001000010000000 = .ok (.f2x (-128)) ∧
  decode 0b0010000001111111 = .ok (.x2f 127) ∧
  decode 0b0010000011111111 = .ok (.x2f (-1)) ∧
  decode 0b0011000000000000 = .ok .mul ∧
  decode 0b0100000000000000 = .ok .addw ∧
  decode 0b0101000000000000 = .ok .adds ∧
  decode 0b0110000000000000 = .ok .sin ∧
  decode 0b0111000000000000 = .ok .cos ∧
  decode 0b1000000000000000 = .ok .sinf ∧
  decode 0b1001000000000000 = .ok .cosf ∧
  decode 0b1010000000000000 = .ok (.ldc .tau) ∧
  decode 0b1010000000000001 = .ok (.ldc .deg360)

/-- A turn of the engine runs the command the oldest request's word decodes to (30_encoding.md, decode and dispatch): the
step is `exec` of it at the same state, and nothing is added around it. -/
def Obligations.StepRunsTheDecodedCommand : Prop :=
  ∀ (s : State) (q : Request) (i : Instr), decode q.cmd = .ok i →
    step (s.withOldest q) = exec i (s.withOldest q)

/-- The model's choice (log entry 5): with no request in flight a turn of the engine, and a command, change nothing. -/
def Obligations.NoRequestNoChange : Prop :=
  ∀ s : State, s.pending = [] → step s = .next s ∧ ∀ i, exec i s = .next s

/-- A turn always ends in a next state: the block never faults, refuses or hangs. With a request in flight it answers one
(70_reset_and_hazards.md, liveness, which speaks of transferred requests). That a turn with none in flight is a next state
too, with nothing answered, is the model's choice (log entry 5). -/
def Obligations.EveryTurnAnswersOneRequest : Prop :=
  ∀ s : State, ∃ t, step s = .next t ∧ t.pending.length = s.pending.length - 1 ∧
    t.responses.length = s.responses.length + min 1 s.pending.length

/-! ### RAW, F2X, X2F -/

/-- 41_fixed_convert.md R90: RAW, word 0x0000, answers its operand A, status OK, both flags 0. -/
def Obligations.RawReturnsItsOperand : Prop :=
  decode 0x0000 = .ok .raw ∧
  ∀ (s : State) (q : Request), exec .raw (s.withOldest q) = .next (s.withResponse (.ok q.a false false))

/-- 41_fixed_convert.md R91: F2X, words 0x1000 | imm, on every pattern: the zeros give 0, subnormals, infinities and NaNs
answer UNREP, and a normal number its shifted significand modulo 2^64, negated for a negative one. -/
def Obligations.F2xFollowsItsPseudocode : Prop :=
  (∀ imm : BitVec 8, decode (0x1000 ||| imm.setWidth 16) = .ok (.f2x imm.toInt)) ∧
  ∀ (off : Int) (s : State) (q : Request),
    exec (.f2x off) (s.withOldest q) = .next (s.withResponse
      (match refF2x off q.a.toNat with
      | some y => .ok (BitVec.ofNat 64 y) false false
      | none => .unrep))

/-- 60_exceptions.md R142: F2X answers UNREP exactly for the subnormal patterns and those of exponent 2047, at every offset;
every other pattern answers OK with both flags 0; and no other command answers UNREP. -/
def Obligations.UnrepExactlyForSubnormalInfiniteAndNan : Prop :=
  (∀ (off : Int) (s : State) (q : Request),
    let m := q.a.toNat % 2 ^ 63
    let bad := (1 ≤ m ∧ m ≤ 0x000FFFFFFFFFFFFF) ∨ 0x7FF0000000000000 ≤ m
    (bad → exec (.f2x off) (s.withOldest q) = .next (s.withResponse .unrep)) ∧
    (¬ bad → ∃ y, exec (.f2x off) (s.withOldest q) = .next (s.withResponse (.ok y false false)))) ∧
  ∀ (i : Instr) (s : State) (q : Request), (∀ off, i ≠ .f2x off) →
    exec i (s.withOldest q) ≠ .next (s.withResponse .unrep)

/-- An inference the spec marks as its own (41_fixed_convert.md R93): for a normal float of absolute value |v| the word is
floor(|v| * 2^(64-off)) modulo 2^64, negated modulo 2^64 for a negative one; a shift of 64 or more, or of -53 or less, gives
0. -/
def Obligations.F2xOfNormalIsTheScaledFloor : Prop :=
  ∀ (off : Int) (s : State) (q : Request), expField q.a ≠ 0 → expField q.a ≠ 2047 →
    ∃ y : Word, exec (.f2x off) (s.withOldest q) = .next (s.withResponse (.ok y false false)) ∧
      (let mag := ⌊normalMagnitude q.a * 2 ^ (64 - off)⌋ % 2 ^ 64
       (y.toNat : Int) = if q.a.getLsbD 63 then (2 ^ 64 - mag) % 2 ^ 64 else mag) ∧
      (64 ≤ ((expField q.a).toNat : Int) - 1011 - off → y = 0) ∧
      (((expField q.a).toNat : Int) - 1011 - off ≤ -53 → y = 0)

/-- An inference the spec marks as its own (41_fixed_convert.md R94): a positive normal v converts to v modulo 2^off,
truncated to a multiple of 2^(off-64), with status OK however large v is. -/
def Obligations.F2xWrapsModuloItsRange : Prop :=
  ∀ (off : Int) (s : State) (q : Request), expField q.a ≠ 0 → expField q.a ≠ 2047 → q.a.getLsbD 63 = false →
    ∃ y : Word, exec (.f2x off) (s.withOldest q) = .next (s.withResponse (.ok y false false)) ∧
      (y.toNat : Int) =
        ⌊(normalMagnitude q.a - 2 ^ off * ⌊normalMagnitude q.a / 2 ^ off⌋) * 2 ^ (64 - off)⌋

/-- An inference the spec marks as its own (41_fixed_convert.md R95): flipping the sign of a normal float or a zero negates
the word modulo 2^64. -/
def Obligations.F2xOfNegatedFloatIsNegatedWord : Prop :=
  ∀ (off : Int) (s : State) (q : Request), (expField q.a = 0 → fracField q.a = 0) → expField q.a ≠ 2047 →
    ∃ y : Word, exec (.f2x off) (s.withOldest q) = .next (s.withResponse (.ok y false false)) ∧
      exec (.f2x off) (s.withOldest { q with a := q.a ^^^ 0x8000000000000000 }) =
        .next (s.withResponse (.ok (-y) false false))

/-- 41_fixed_convert.md R92: X2F, words 0x2000 | imm, on every word, truncating: +0.0 for 0, otherwise sign 0, the exponent
of the leading 1 and the 52 bits below it; status OK, both flags 0. -/
def Obligations.X2fFollowsItsPseudocode : Prop :=
  (∀ imm : BitVec 8, decode (0x2000 ||| imm.setWidth 16) = .ok (.x2f imm.toInt)) ∧
  ∀ (off : Int) (s : State) (q : Request),
    exec (.x2f off) (s.withOldest q) = .next (s.withResponse (.ok (BitVec.ofNat 64 (refX2f off q.a.toNat)) false false))

/-- An inference the spec marks as its own (41_fixed_convert.md R96): for an admitted offset and a word that is not 0 the
exponent is normal, 831..1149, the sign is 0, the float is at most the value of the word and within one unit in its last
place, and equal to it when at most 53 bits are significant. -/
def Obligations.X2fIsNormalAndTruncates : Prop :=
  ∀ (off : Int) (s : State) (q : Request), offsetInRange off = true → q.a ≠ 0 →
    ∃ y : Word, exec (.x2f off) (s.withOldest q) = .next (s.withResponse (.ok y false false)) ∧
      831 ≤ (expField y).toNat ∧ (expField y).toNat ≤ 1149 ∧ y.getLsbD 63 = false ∧
      normalMagnitude y ≤ fixedValue off q.a ∧
      fixedValue off q.a < normalMagnitude y + 2 ^ (((expField y).toNat : Int) - 1075) ∧
      (2 ^ (Nat.log2 q.a.toNat - 52) ∣ q.a.toNat → normalMagnitude y = fixedValue off q.a)

/-- An inference the spec marks as its own (41_fixed_convert.md R97 a): F2X of X2F of a word, at one admitted offset, is the
word with the bits below its top 53 significant bits cleared. -/
def Obligations.F2xOfX2fKeepsTheTop53Bits : Prop :=
  ∀ (off : Int) (s : State) (q : Request), offsetInRange off = true →
    ∃ y : Word, exec (.x2f off) (s.withOldest q) = .next (s.withResponse (.ok y false false)) ∧
      exec (.f2x off) (s.withOldest { q with a := y }) = .next (s.withResponse
        (.ok (BitVec.ofNat 64 (q.a.toNat - q.a.toNat % 2 ^ (Nat.log2 q.a.toNat - 52))) false false))

/-- An inference the spec marks as its own (41_fixed_convert.md R97 b): for a positive normal float below 2^off and at least
2^(off-12), X2F of F2X at that admitted offset is the float itself. -/
def Obligations.X2fOfF2xIsExactInTheTopRange : Prop :=
  ∀ (off : Int) (s : State) (q : Request), offsetInRange off = true →
    expField q.a ≠ 0 → expField q.a ≠ 2047 → q.a.getLsbD 63 = false →
    2 ^ (off - 12) ≤ normalMagnitude q.a → normalMagnitude q.a < 2 ^ off →
    ∃ y : Word, exec (.f2x off) (s.withOldest q) = .next (s.withResponse (.ok y false false)) ∧
      exec (.x2f off) (s.withOldest { q with a := y }) = .next (s.withResponse (.ok q.a false false))

/-! ### MUL, ADDW, ADDS, LDC -/

/-- 42_fixed_arith.md R100: MUL, word 0x3000, answers the upper half of the unsigned 128-bit product. -/
def Obligations.MulKeepsTheUpperHalf : Prop :=
  decode 0x3000 = .ok .mul ∧
  ∀ (s : State) (q : Request), exec .mul (s.withOldest q) =
    .next (s.withResponse (.ok (BitVec.ofNat 64 (q.a.toNat * q.b.toNat / 2 ^ 64)) false false))

/-- 42_fixed_arith.md R101: ADDW, word 0x4000, answers the sum modulo 2^64; the carry is not reported. -/
def Obligations.AddwWraps : Prop :=
  decode 0x4000 = .ok .addw ∧
  ∀ (s : State) (q : Request), exec .addw (s.withOldest q) =
    .next (s.withResponse (.ok (BitVec.ofNat 64 ((q.a.toNat + q.b.toNat) % 2 ^ 64)) false false))

/-- 42_fixed_arith.md R102: ADDS, word 0x5000, answers the sum, or 2^64 - 1 where the sum is 2^64 or more; the clamping is
not reported. -/
def Obligations.AddsClamps : Prop :=
  decode 0x5000 = .ok .adds ∧
  ∀ (s : State) (q : Request), exec .adds (s.withOldest q) = .next (s.withResponse
    (.ok (if q.a.toNat + q.b.toNat < 2 ^ 64 then BitVec.ofNat 64 (q.a.toNat + q.b.toNat) else 0xFFFFFFFFFFFFFFFF)
      false false))

/-- 43_constants.md R110: LDC answers `TAU_BITS` for word 0xA000 and `DEG360_BITS` for 0xA001, whatever the operands; a
larger immediate is a reserved word. -/
def Obligations.LdcReadsTheConstants : Prop :=
  decode 0xA000 = .ok (.ldc .tau) ∧ decode 0xA001 = .ok (.ldc .deg360) ∧
  (∀ (s : State) (q : Request),
    exec (.ldc .tau) (s.withOldest q) = .next (s.withResponse (.ok s.config.tauBits false false)) ∧
    exec (.ldc .deg360) (s.withOldest q) = .next (s.withResponse (.ok 0xB400000000000000 false false))) ∧
  ∀ (n : Nat) (s : State) (q : Request), 2 ≤ n → n < 256 → q.cmd = BitVec.ofNat 16 (0xA000 + n) →
    step (s.withOldest q) = .next (s.withResponse .ill)

/-- The use of the constants (43_constants.md): the product of 360 at offset 9 and an angle word is below 360, and that of
`TAU_BITS` below τ where `TAU_BITS` is not 0. -/
def Obligations.AngleInUnitsStaysBelowOneRotation : Prop :=
  ∀ (s : State) (q : Request),
    (q.a = 0xB400000000000000 → ∃ y : Word,
      exec .mul (s.withOldest q) = .next (s.withResponse (.ok y false false)) ∧ y < 0xB400000000000000) ∧
    (q.a = s.config.tauBits → s.config.tauBits ≠ 0 → ∃ y : Word,
      exec .mul (s.withOldest q) = .next (s.withResponse (.ok y false false)) ∧ y < s.config.tauBits)

/-! ### SIN, COS, SINF, COSF -/

/-- 40_primitives.md R83: the count of leading zeros is 63 minus the position of the most significant 1 bit, and 64 for 0. -/
def Obligations.ClzCountsFromTheTopBit : Prop :=
  ∀ v : Word, (v = 0 → clz64 v = 64) ∧
    ∀ p : Nat, v.getLsbD p = true → (∀ j, p < j → v.getLsbD j = false) → clz64 v = 63 - p ∧ clz64 v ≤ 63

/-- 44_trig.md R121 over R115 to R118 and R120: SIN, word 0x6000, answers the sign, the sentinel and the magnitude of the
five-step sequence, for every angle word, every table and every τ literal; status OK. -/
def Obligations.SinFollowsTheFiveSteps : Prop :=
  decode 0x6000 = .ok .sin ∧
  ∀ (s : State) (q : Request), exec .sin (s.withOldest q) = .next (s.withResponse
    (.ok (BitVec.ofNat 64 (refSine s.config q.a.toNat).2.2) (refSine s.config q.a.toNat).1
      (refSine s.config q.a.toNat).2.1))

/-- 44_trig.md R122: COS, word 0x7000, is the same evaluation a quarter turn further, modulo one rotation, and gives the very
response SIN gives there. -/
def Obligations.CosIsSinAQuarterTurnFurther : Prop :=
  decode 0x7000 = .ok .cos ∧
  ∀ (s : State) (q : Request),
    (let x := (q.a.toNat + 2 ^ 62) % 2 ^ 64
     exec .cos (s.withOldest q) = .next (s.withResponse
      (.ok (BitVec.ofNat 64 (refSine s.config x).2.2) (refSine s.config x).1 (refSine s.config x).2.1))) ∧
    ∃ r, exec .cos (s.withOldest q) = .next (s.withResponse r) ∧
      exec .sin (s.withOldest { q with a := q.a + 0x4000000000000000 }) = .next (s.withResponse r)

/-- 44_trig.md R123 and R125: SINF, word 0x8000, answers the evaluator's result reassembled as a binary64 pattern, with NEG
and ONE as SIN reports them; the pattern lies in [-1.0, 1.0], so it is no NaN and no infinity. -/
def Obligations.SinfReassemblesTheSineAsAFloat : Prop :=
  decode 0x8000 = .ok .sinf ∧
  ∀ (s : State) (q : Request), ∃ y : Word,
    exec .sinf (s.withOldest q) = .next (s.withResponse
      (.ok y (refSine s.config q.a.toNat).1 (refSine s.config q.a.toNat).2.1)) ∧
    y.toNat = refSm2f (refSine s.config q.a.toNat) ∧
    y.toNat % 2 ^ 63 ≤ 0x3FF0000000000000

/-- 44_trig.md R124: COSF, word 0x9000, is SINF's evaluation a quarter turn further, and gives the very response SINF gives
there. -/
def Obligations.CosfIsSinfAQuarterTurnFurther : Prop :=
  decode 0x9000 = .ok .cosf ∧
  ∀ (s : State) (q : Request),
    (let x := (q.a.toNat + 2 ^ 62) % 2 ^ 64
     exec .cosf (s.withOldest q) = .next (s.withResponse
      (.ok (BitVec.ofNat 64 (refSm2f (refSine s.config x))) (refSine s.config x).1 (refSine s.config x).2.1))) ∧
    ∃ r, exec .cosf (s.withOldest q) = .next (s.withResponse r) ∧
      exec .sinf (s.withOldest { q with a := q.a + 0x4000000000000000 }) = .next (s.withResponse r)

/-- An inference the spec marks as its own (44_trig.md R126 a): half a turn further the sine has the same sentinel and
magnitude and the opposite sign, and the floats differ in bit 63 only. -/
def Obligations.HalfTurnFlipsOnlyTheSign : Prop :=
  ∀ (s : State) (q : Request), ∃ (y f : Word) (neg one : Bool),
    exec .sin (s.withOldest q) = .next (s.withResponse (.ok y neg one)) ∧
    exec .sin (s.withOldest { q with a := q.a + 0x8000000000000000 }) = .next (s.withResponse (.ok y (!neg) one)) ∧
    exec .sinf (s.withOldest q) = .next (s.withResponse (.ok f neg one)) ∧
    exec .sinf (s.withOldest { q with a := q.a + 0x8000000000000000 }) =
      .next (s.withResponse (.ok (f ^^^ 0x8000000000000000) (!neg) one))

/-- An inference the spec marks as its own (44_trig.md R126 b): for 0 < r < 2^63 the angles r and 2^63 - r have one sine, for
every table. -/
def Obligations.SupplementaryAnglesHaveOneSine : Prop :=
  ∀ (s : State) (q : Request), 0 < q.a.toNat → q.a.toNat < 2 ^ 63 → ∃ r,
    exec .sin (s.withOldest q) = .next (s.withResponse r) ∧
    exec .sin (s.withOldest { q with a := 0x8000000000000000 - q.a }) = .next (s.withResponse r)

/-- An inference the spec marks as its own (44_trig.md R126 c): the sine of the negated angle has the same sentinel and
magnitude and the opposite sign, but at 0 and at the half turn, which negation leaves as they are. -/
def Obligations.SineIsOdd : Prop :=
  ∀ (s : State) (q : Request), ∃ (y : Word) (neg one : Bool),
    exec .sin (s.withOldest q) = .next (s.withResponse (.ok y neg one)) ∧
    (q.a ≠ 0 → q.a ≠ 0x8000000000000000 →
      exec .sin (s.withOldest { q with a := -q.a }) = .next (s.withResponse (.ok y (!neg) one))) ∧
    (q.a = 0 ∨ q.a = 0x8000000000000000 → -q.a = q.a)

/-- An inference the spec marks as its own (44_trig.md R126 d): COS of an angle and of its negation agree in sentinel and
magnitude, and in the sign too where the angle is not a quarter turn or three quarters, whose cosine has magnitude 0. -/
def Obligations.CosineIsEven : Prop :=
  ∀ (s : State) (q : Request), ∃ (y : Word) (neg neg' one : Bool),
    exec .cos (s.withOldest q) = .next (s.withResponse (.ok y neg one)) ∧
    exec .cos (s.withOldest { q with a := -q.a }) = .next (s.withResponse (.ok y neg' one)) ∧
    (q.a ≠ 0x4000000000000000 → q.a ≠ 0xC000000000000000 → neg' = neg) ∧
    (q.a = 0x4000000000000000 ∨ q.a = 0xC000000000000000 → y = 0 ∧ one = false)

/-- An inference the spec marks as its own (20_memory.md R53): the table entry i, for i in 1..255, is the sine of the angle
i * 2^54, and entry 0 is never read: a table that differs in entry 0 only gives every response alike. -/
def Obligations.TableEntriesShowAsSines : Prop :=
  (∀ (s : State) (q : Request) (i : Fin 256), i ≠ 0 → q.a = BitVec.ofNat 64 (i.val * 2 ^ 54) →
    exec .sin (s.withOldest q) = .next (s.withResponse (.ok s.config.curve[i] false false))) ∧
  ∀ (c : Config) (v : Word) (q : Request), respond { c with curve := c.curve.set 0 v } q = respond c q

/-- An inference the spec marks as its own (44_trig.md R127): epsilon shifted left by 3 loses no bit; the 128-bit product of
`radians` is exact and below 2^121; the product term of the correction is at most epsilon in radians, which is below 2^57; the
sum of the correction, the only one that can pass 2^64, is clamped; the reflection borrows nothing and lands below 2^62. -/
def Obligations.SineIntermediatesStayInRange : Prop :=
  ∀ (c : Config) (x : Word),
    (∀ eps : BitVec 54,
      (shl64 (eps.setWidth 64) 3).toNat = eps.toNat * 8 ∧ (shl64 (eps.setWidth 64) 3).toNat < 2 ^ 57 ∧
      (mulwide (shl64 (eps.setWidth 64) 3) (constAt c .tau)).toNat = eps.toNat * 8 * c.tauBits.toNat ∧
      (mulwide (shl64 (eps.setWidth 64) 3) (constAt c .tau)).toNat < 2 ^ 121 ∧
      (radians c eps).toNat < 2 ^ 57) ∧
    (∀ (idx : BitVec 8) (eps : BitVec 54),
      let term := mulhi (curveAt c (mirror idx)) (radians c eps)
      term.toNat ≤ (radians c eps).toNat ∧
      (idx ≠ 0 → (correct c idx (radians c eps)).toNat =
        if (curveAt c idx).toNat + term.toNat < 2 ^ 64 then (curveAt c idx).toNat + term.toNat else 2 ^ 64 - 1)) ∧
    (belowHalf x ≠ quarterTurn → (reflect (belowHalf x)).toNat < 2 ^ 62 ∧
      (¬ belowHalf x < quarterTurn → (reflect (belowHalf x)).toNat + (belowHalf x).toNat = 2 ^ 63))

/-! ### Whole-machine rules -/

/-- What every command leaves unchanged: the read-only spaces, every other request, every earlier response; it adds exactly
one response (10_state.md, no mutable state; 20_memory.md, read-only spaces and order). -/
def Obligations.CommandsChangeOnlyTheirOwnRequest : Prop :=
  ∀ (i : Instr) (s t : State) (q : Request) (rest : List Request), s.pending = q :: rest → exec i s = .next t →
    t.config = s.config ∧ t.pending = rest ∧ ∃ r, t.responses = s.responses ++ [r]

/-- 10_state.md R26: every command completes; UNREP comes from F2X exactly on NaNs, infinities and subnormals, ILL from
reserved words and no command; NEG is set exactly by the sine commands on an angle, for cosine the advanced one, whose bit 63
is 1, and ONE exactly where its low 63 bits equal 2^62. -/
def Obligations.FlagsComeOnlyFromTheirCommands : Prop :=
  (∀ (s : State) (q : Request), (∀ i, decode q.cmd ≠ .ok i) → step (s.withOldest q) = .next (s.withResponse .ill)) ∧
  ∀ (i : Instr) (s : State) (q : Request), ∃ r, exec i (s.withOldest q) = .next (s.withResponse r) ∧
    r ≠ .ill ∧
    (r = .unrep ↔ (∃ off, i = .f2x off) ∧
      (floatClass q.a = .nan ∨ floatClass q.a = .infinite ∨ floatClass q.a = .subnormal)) ∧
    (let sine := i = .sin ∨ i = .sinf
     let cosine := i = .cos ∨ i = .cosf
     let x := q.a.toNat
     let x' := (q.a.toNat + 2 ^ 62) % 2 ^ 64
     (r.neg = true ↔ (sine ∧ 2 ^ 63 ≤ x) ∨ (cosine ∧ 2 ^ 63 ≤ x')) ∧
     (r.one = true ↔ (sine ∧ x % 2 ^ 63 = 2 ^ 62) ∨ (cosine ∧ x' % 2 ^ 63 = 2 ^ 62)))

/-- 60_exceptions.md R143 and R144: a turn answers ILL exactly when the word is reserved, whatever the operands, and UNREP
only for a legal F2X word. -/
def Obligations.IllegalWordWinsOverUnrepresentableOperand : Prop :=
  ∀ (s : State) (q : Request),
    (step (s.withOldest q) = .next (s.withResponse .ill) ↔ ∀ i, decode q.cmd ≠ .ok i) ∧
    (step (s.withOldest q) = .next (s.withResponse .unrep) → ∃ off, decode q.cmd = .ok (.f2x off))

/-- The response port (10_state.md, the response; 60_exceptions.md, statuses): `rsp_fl` is `{ONE, NEG, ST}`, the codes are 0,
1 and 2, never 3, and Y, NEG, ONE are 0 whenever the status is not OK. -/
def Obligations.PortFieldsEncodeTheResponse : Prop :=
  (∀ r : Response,
    r.fl.toNat = 8 * r.one.toNat + 4 * r.neg.toNat + r.status.code.toNat ∧ r.status.code ≠ 3 ∧
    (r.status ≠ .ok → r.y = 0 ∧ r.neg = false ∧ r.one = false)) ∧
  (∀ (y : Word) (neg one : Bool), (Response.ok y neg one).status.code = 0 ∧ (Response.ok y neg one).y = y ∧
    (Response.ok y neg one).neg = neg ∧ (Response.ok y neg one).one = one) ∧
  Response.unrep.status.code = 1 ∧ Response.ill.status.code = 2

/-- 10_state.md R20: two blocks of one configuration give one request one response, whatever else they hold: earlier
responses, other requests, or a history of any kind. -/
def Obligations.ResponseDependsOnRequestAndConfigurationOnly : Prop :=
  ∀ (s t : State) (q : Request), s.config = t.config → ∃ r,
    step (s.withOldest q) = .next (s.withResponse r) ∧ step (t.withOldest q) = .next (t.withResponse r)

/-- Operands a command does not use are ignored (30_encoding.md, operand use; 93 U16): B by every command but MUL, ADDW and
ADDS, and A too by LDC. -/
def Obligations.UnusedOperandsAreIgnored : Prop :=
  ∀ (i : Instr) (s : State) (q : Request) (a b : Word), ∃ r, exec i (s.withOldest q) = .next (s.withResponse r) ∧
    (i ≠ .mul → i ≠ .addw → i ≠ .adds → exec i (s.withOldest { q with b := b }) = .next (s.withResponse r)) ∧
    (∀ k, i = .ldc k → exec i (s.withOldest { q with a := a, b := b }) = .next (s.withResponse r))

/-- The engine refines the pure function of 10_state.md: as many turns as there are requests in flight answer them all, in
order, one for one, and leave the rest of the state as it was. -/
def Obligations.RunAnswersAllRequestsInOrder : Prop :=
  ∀ s : State, Sys2Proof.core.run s.pending.length s =
    .next { s with pending := [], responses := s.responses ++ s.pending.map (respond s.config) }

/-- 20_memory.md R50: whatever the order of transfers, engine turns and resets, the responses transferred, then those
offered, then those of the requests in flight are the responses to the requests transferred since the last reset, in their
order: the n-th response transferred answers the n-th request. -/
def Obligations.ResponsesComeInRequestOrder : Prop :=
  ∀ (c : Config) (moves : List Move),
    let h := (Session.start c).run moves
    h.taken ++ h.block.responses ++ h.block.pending.map (respond c) = h.issued.map (respond c) ∧ h.block.config = c ∧
    ∀ (n : Nat) (r : Response), h.taken[n]? = some r → ∃ q, h.issued[n]? = some q ∧ r = respond c q

/-- 20_memory.md R50 as a step of any session, reached or not: if the responses transferred, then those offered, then those
of the requests in flight are the responses to the requests transferred since the last reset, in their order, then they are
so after any move of host or engine, and the configuration is the same. -/
def Obligations.EveryMoveKeepsTheResponseOrder : Prop :=
  ∀ (h : Session) (m : Move),
    h.taken ++ h.block.responses ++ h.block.pending.map (respond h.block.config) =
      h.issued.map (respond h.block.config) →
    (h.move m).block.config = h.block.config ∧
    (h.move m).taken ++ (h.move m).block.responses ++
        (h.move m).block.pending.map (respond (h.move m).block.config) =
      (h.move m).issued.map (respond (h.move m).block.config)

/-- The invariant survives a turn of the engine, from every state: the table keeps its two invariants (20_memory.md), and
every response that sets ONE carries 0 or the float 1.0 of its sign. -/
def Obligations.EveryTurnKeepsTheInvariant : Prop :=
  ∀ s t : State, s.Inv → step s = .next t → t.Inv

/-- The invariant holds right after reset; that the table of the reset state is the default one is log entry 1. -/
def Obligations.ResetMeetsTheInvariant : Prop :=
  State.reset.Inv

/-- The invariant survives every move of the host too, so it holds in every session that starts with an admitted table. -/
def Obligations.SessionsKeepTheInvariant : Prop :=
  ∀ (c : Config) (moves : List Move), c.Admitted → ((Session.start c).run moves).block.Inv

/-- 70_reset_and_hazards.md R160: after `rst` no request is in flight and no response offered, the constants stay, and the
next request is answered exactly as it would be at any other time. -/
def Obligations.AssertResetDropsWhatIsOwedAndNothingElse : Prop :=
  ∀ (s : State) (q : Request),
    s.assertReset.pending = [] ∧ s.assertReset.responses = [] ∧ s.assertReset.config = s.config ∧
    ∃ r, step (s.assertReset.request q) = .next (s.assertReset.withResponse r) ∧
      ∀ t : State, t.config = s.config → step (t.withOldest q) = .next (t.withResponse r)

/-- The block after reset: nothing in flight, nothing offered (10_state.md, reset values), and, by log entry 1, the default
constants and table with the checks the spec gives a transcriber (20_memory.md, the default table). -/
def Obligations.ResetStateHoldsTheDefaults : Prop :=
  State.reset.pending = [] ∧ State.reset.responses = [] ∧ State.reset.config.tauBits = 0xC90FDAA22168C235 ∧
  State.reset.config.curve.toList.foldl (· + ·) 0 = 0x7961EBA872F1DA67 ∧
  State.reset.config.curve.toList.foldl (· ^^^ ·) 0 = 0x413429BD60A699DD ∧
  State.reset.config.curve[0] = 0 ∧ State.reset.config.curve[128] = 0xB504F333F9DE6484

/-! ### The host's notation -/

/-- A line of the host's notation (30_encoding.md, syntax): its request is the triple `CMD:A:B` with an omitted operand sent
as 0, and running it on a quiet block gives `dst` the word Y and `flags` the bundle rsp_fl of the response, and leaves the
block as it was. That a temporary named by both keeps rsp_fl is the model's choice (log entry 14). -/
def Obligations.LineRunsAsItsRequest : Prop :=
  ∀ (l : Line) (temps : Temps) (s : State) (a b : Word), l.instr.wellFormed = true →
    l.srcA.word temps = some a → l.srcB.word temps = some b → s.Quiet →
    assemble temps l = some { cmd := encode l.instr, a := a, b := b } ∧
    Source.omitted.word temps = some 0 ∧
    ∃ r, exec l.instr (s.withOldest { cmd := encode l.instr, a := a, b := b }) = .next (s.withResponse r) ∧
      runLine l temps s = some (assign (assign temps l.dst r.y) l.flags (r.fl.setWidth 64), s)

/-- 30_encoding.md R72: on a quiet block each pseudo-command's expansion gives `y` the word the rules of its commands give,
and leaves the block as it was. The operand `x` is a literal, an omitted one, or a host temporary with a value; for ASRAD and
ASDEG one other than `t1`, which their first line overwrites. -/
def Obligations.PseudoCommandsComputeTheirFunctions : Prop :=
  ∀ (s : State) (temps : Temps) (y fl t1 t2 : Nat) (x : Source) (v : Word), s.Quiet → x.word temps = some v →
    (∃ e, runLines (asRot y x) temps s = some (e, s) ∧
      e.lookup y = some (BitVec.ofNat 64 (refX2f 0 v.toNat))) ∧
    (x ≠ .temp t1 → ∃ e, runLines (asRad y t1 t2 x) temps s = some (e, s) ∧
      e.lookup y = some (BitVec.ofNat 64 (refX2f 3 (s.config.tauBits.toNat * v.toNat / 2 ^ 64)))) ∧
    (x ≠ .temp t1 → ∃ e, runLines (asDeg y t1 t2 x) temps s = some (e, s) ∧
      e.lookup y = some (BitVec.ofNat 64 (refX2f 9 (0xB400000000000000 * v.toNat / 2 ^ 64)))) ∧
    (y ≠ fl → ∃ e, runLines (fromRot y fl x) temps s = some (e, s) ∧
      e.lookup y = some (BitVec.ofNat 64 ((refF2x 0 v.toNat).getD 0)) ∧
      e.lookup fl = some (if (refF2x 0 v.toNat).isSome then 0 else 1)) ∧
    runLines nop temps s = some (temps, s)
end

