-- ==== Sys2Proof/Laws/State.lean ====
section
/-! SUPPORT. One lemma per field per update of State, Session and Config, true by rfl, so that no proof unfolds an update. -/

namespace Sys2Proof.Machine

@[simp] theorem State.withOldest_pending (s : State) (q : Request) : (s.withOldest q).pending = q :: s.pending := rfl
@[simp] theorem State.withOldest_config (s : State) (q : Request) : (s.withOldest q).config = s.config := rfl
@[simp] theorem State.withOldest_responses (s : State) (q : Request) : (s.withOldest q).responses = s.responses := rfl

@[simp] theorem State.withResponse_pending (s : State) (r : Response) : (s.withResponse r).pending = s.pending := rfl
@[simp] theorem State.withResponse_config (s : State) (r : Response) : (s.withResponse r).config = s.config := rfl
@[simp] theorem State.withResponse_responses (s : State) (r : Response) :
    (s.withResponse r).responses = s.responses ++ [r] := rfl

@[simp] theorem State.withFetchWord_pending (s : State) (n w : Nat) :
    (s.withFetchWord n w).pending = placeCommand (tableWord n w) s.pending := rfl
@[simp] theorem State.withFetchWord_config (s : State) (n w : Nat) : (s.withFetchWord n w).config = s.config := rfl
@[simp] theorem State.withFetchWord_responses (s : State) (n w : Nat) :
    (s.withFetchWord n w).responses = s.responses := rfl

@[simp] theorem State.request_pending (s : State) (q : Request) : (s.request q).pending = s.pending ++ [q] := rfl
@[simp] theorem State.request_config (s : State) (q : Request) : (s.request q).config = s.config := rfl
@[simp] theorem State.request_responses (s : State) (q : Request) : (s.request q).responses = s.responses := rfl

@[simp] theorem State.assertReset_pending (s : State) : s.assertReset.pending = [] := rfl
@[simp] theorem State.assertReset_config (s : State) : s.assertReset.config = s.config := rfl
@[simp] theorem State.assertReset_responses (s : State) : s.assertReset.responses = [] := rfl

@[simp] theorem State.reset_pending : State.reset.pending = [] := rfl
@[simp] theorem State.reset_config : State.reset.config = defaultConfig := rfl
@[simp] theorem State.reset_responses : State.reset.responses = [] := rfl

@[simp] theorem placeCommand_nil (w : CommandWord) : placeCommand w [] = [{ cmd := w, a := 0, b := 0 }] := rfl
@[simp] theorem placeCommand_cons (w : CommandWord) (q : Request) (rest : List Request) :
    placeCommand w (q :: rest) = { q with cmd := w } :: rest := rfl

@[simp] theorem Session.start_block (c : Config) : (Session.start c).block = { State.reset with config := c } := rfl
@[simp] theorem Session.start_issued (c : Config) : (Session.start c).issued = [] := rfl
@[simp] theorem Session.start_taken (c : Config) : (Session.start c).taken = [] := rfl

@[simp] theorem Session.move_request (h : Session) (q : Request) :
    h.move (.request q) = { h with block := h.block.request q, issued := h.issued ++ [q] } := rfl
@[simp] theorem Session.move_work (h : Session) : h.move .work = { h with block := h.block.afterTurn } := rfl
@[simp] theorem Session.move_reset (h : Session) :
    h.move .reset = { block := h.block.assertReset, issued := [], taken := [] } := rfl
theorem Session.move_take_of_nil {h : Session} (hr : h.block.responses = []) : h.move .take = h := by
  simp [Session.move, State.take, hr]
theorem Session.move_take_of_cons {h : Session} {r : Response} {rest : List Response}
    (hr : h.block.responses = r :: rest) :
    h.move .take = { h with block := { h.block with responses := rest }, taken := h.taken ++ [r] } := by
  simp [Session.move, State.take, hr]

@[simp] theorem Session.run_nil (h : Session) : h.run [] = h := rfl
@[simp] theorem Session.run_cons (h : Session) (m : Move) (ms : List Move) : h.run (m :: ms) = (h.move m).run ms := rfl

/-- A property that the first session has and every move keeps holds after every run. -/
theorem Session.run_induction {P : Session → Prop} (keeps : ∀ h m, P h → P (h.move m)) {h : Session} (start : P h)
    (ms : List Move) : P (h.run ms) := by
  induction ms generalizing h with
  | nil => exact start
  | cons m ms ih => exact ih (keeps h m start)

end Sys2Proof.Machine
end

