-- ==== Sys2Proof/Laws/Ops.lean ====
section
/-! SUPPORT. What the shared operations do, once: answering a command, the datapath primitives as arithmetic on numbers
(40_primitives.md), and the reads of the read-only spaces. -/

namespace Sys2Proof.Machine

/-! ### Answering a command -/

theorem command_of_pending_nil {s : State} (f : Config → Request → Response) (h : s.pending = []) :
    command f s = .next s := by
  simp [command, h]

theorem command_of_pending_cons {s : State} {q : Request} {rest : List Request} (f : Config → Request → Response)
    (h : s.pending = q :: rest) :
    command f s = .next (State.withResponse { s with pending := rest } (f s.config q)) := by
  simp [command, h]

@[simp] theorem command_withOldest (f : Config → Request → Response) (s : State) (q : Request) :
    command f (s.withOldest q) = .next (s.withResponse (f s.config q)) := rfl

/-- Everything `command` can do: nothing when no request is in flight, otherwise answer the oldest one. -/
theorem command_next_cases {f : Config → Request → Response} {s t : State} (h : command f s = .next t) :
    (s.pending = [] ∧ t = s) ∨
    ∃ q rest, s.pending = q :: rest ∧ t = State.withResponse { s with pending := rest } (f s.config q) := by
  cases hp : s.pending with
  | nil =>
    rw [command_of_pending_nil f hp] at h
    exact .inl ⟨rfl, (Host.Outcome.next.inj h).symm⟩
  | cons q rest =>
    rw [command_of_pending_cons f hp] at h
    exact .inr ⟨q, rest, rfl, (Host.Outcome.next.inj h).symm⟩

/-- `command` always ends in a next state. -/
theorem command_completes (f : Config → Request → Response) (s : State) : ∃ t, command f s = .next t := by
  cases hp : s.pending with
  | nil => exact ⟨s, command_of_pending_nil f hp⟩
  | cons q rest => exact ⟨_, command_of_pending_cons f hp⟩

/-- Two states with a request in flight agree after answering exactly when the answers agree. -/
theorem State.withResponse_inj {s : State} {r r' : Response} (h : s.withResponse r = s.withResponse r') : r = r' := by
  have := congrArg State.responses h
  simpa using this

/-- A state with a request in flight is one with that request put first. -/
theorem State.eq_withOldest {s : State} {q : Request} {rest : List Request} (h : s.pending = q :: rest) :
    s = State.withOldest { s with pending := rest } q := by
  cases s
  simp_all [State.withOldest]

/-! ### The primitives as numbers -/

theorem shl64_toNat (v : Word) (n : Nat) : (shl64 v n).toNat = v.toNat * 2 ^ n % 2 ^ 64 := by
  simp [shl64, Nat.shiftLeft_eq]

theorem shr64_toNat {w : Nat} (v : BitVec w) (n : Nat) : (shr64 v n).toNat = v.toNat / 2 ^ n := by
  simp [shr64, Nat.shiftRight_eq_div_pow]

theorem mulwide_toNat (a b : Word) : (mulwide a b).toNat = a.toNat * b.toNat := by
  have h : a.toNat * b.toNat < 2 ^ 128 := by
    calc a.toNat * b.toNat < 2 ^ 64 * 2 ^ 64 := Nat.mul_lt_mul'' a.isLt b.isLt
      _ = 2 ^ 128 := by norm_num
  rw [mulwide, BitVec.toNat_mul, BitVec.toNat_setWidth, BitVec.toNat_setWidth,
    Nat.mod_eq_of_lt (lt_trans a.isLt (by norm_num)), Nat.mod_eq_of_lt (lt_trans b.isLt (by norm_num)),
    Nat.mod_eq_of_lt h]

theorem mulhi_toNat (a b : Word) : (mulhi a b).toNat = a.toNat * b.toNat / 2 ^ 64 := by
  have h : a.toNat * b.toNat / 2 ^ 64 < 2 ^ 64 :=
    Nat.div_lt_of_lt_mul (Nat.mul_lt_mul'' a.isLt b.isLt)
  rw [mulhi, BitVec.toNat_setWidth, shr64_toNat, mulwide_toNat, Nat.mod_eq_of_lt h]

theorem mulhi_comm (a b : Word) : mulhi a b = mulhi b a := by
  rw [mulhi, mulwide, mul_comm]
  rfl

/-- The product keeps at most its second factor (40_primitives.md R84). -/
theorem mulhi_le (a b : Word) : (mulhi a b).toNat ≤ b.toNat := by
  rw [mulhi_toNat]
  exact Nat.div_le_of_le_mul (Nat.mul_le_mul_right _ a.isLt.le)

theorem neg64_toNat (v : Word) : (neg64 v).toNat = (2 ^ 64 - v.toNat) % 2 ^ 64 := by
  rw [neg64, BitVec.toNat_neg]

theorem add65_toNat (a b : Word) : (add65 a b).toNat = a.toNat + b.toNat := by
  have ha := a.isLt
  have hb := b.isLt
  rw [add65, BitVec.toNat_add, BitVec.toNat_setWidth, BitVec.toNat_setWidth]
  omega

theorem wrapAdd_toNat (a b : Word) : (wrapAdd a b).toNat = (a.toNat + b.toNat) % 2 ^ 64 := by
  rw [wrapAdd, BitVec.toNat_setWidth, add65_toNat]

theorem wrapAdd_eq_add (a b : Word) : wrapAdd a b = a + b := by
  apply BitVec.eq_of_toNat_eq
  rw [wrapAdd_toNat, BitVec.toNat_add]

theorem satAdd_toNat (a b : Word) : (satAdd a b).toNat = min (a.toNat + b.toNat) (2 ^ 64 - 1) := by
  have ha := a.isLt
  have hb := b.isLt
  have hbit : (add65 a b).getLsbD 64 = decide (2 ^ 64 ≤ a.toNat + b.toNat) := by
    rw [BitVec.getLsbD, add65_toNat, Nat.testBit_eq_decide_div_mod_eq]
    have : (a.toNat + b.toNat) / 2 ^ 64 % 2 = 1 ↔ 2 ^ 64 ≤ a.toNat + b.toNat := by omega
    simp only [this]
  rw [satAdd, hbit]
  by_cases h : 2 ^ 64 ≤ a.toNat + b.toNat
  · simp only [h, decide_true, if_true, BitVec.toNat_allOnes]
    omega
  · simp only [h, decide_false, Bool.false_eq_true, if_false, BitVec.toNat_setWidth, add65_toNat]
    omega

theorem sub64_toNat {a b : Word} (h : b.toNat ≤ a.toNat) : (sub64 a b).toNat = a.toNat - b.toNat := by
  have ha := a.isLt
  rw [sub64, BitVec.toNat_sub]
  omega

/-! ### The angle word and the read-only spaces -/

theorem belowHalf_toNat (x : Word) : (belowHalf x).toNat = x.toNat % 2 ^ 63 := by
  have : x.toNat % 2 ^ 63 < 2 ^ 64 := by omega
  rw [belowHalf, BitVec.toNat_setWidth, BitVec.extractLsb'_toNat, Nat.shiftRight_zero, Nat.mod_eq_of_lt this]

theorem mirror_toNat {idx : BitVec 8} (h : idx ≠ 0) : (mirror idx).toNat = 256 - idx.toNat := by
  have hlt := idx.isLt
  have hpos : idx.toNat ≠ 0 := fun h0 => h (BitVec.eq_of_toNat_eq h0)
  rw [mirror, BitVec.toNat_ofNat]
  omega

@[simp] theorem constAt_tau (c : Config) : constAt c .tau = c.tauBits := rfl
@[simp] theorem constAt_deg360 (c : Config) : constAt c .deg360 = deg360Bits := rfl

theorem refCurve_eq (c : Config) (i : BitVec 8) : refCurve c i.toNat = (curveAt c i).toNat := by
  have h : i.toNat < 256 := i.isLt
  simp [refCurve, curveAt, h]

end Sys2Proof.Machine
end

