-- ==== Sys2Proof/Laws/Fields.lean ====
section
/-! SUPPORT. The fields of a float and of an angle word, and the steps of the evaluator, as numbers (00_scope.md R12, 44_trig.md
R116 to R120): one lemma per definition, so that no proof unfolds a bit extraction again. -/

namespace Sys2Proof.Machine

theorem signBit_eq (v : Word) : signBit v = decide (2 ^ 63 ≤ v.toNat) := by
  have h := v.isLt
  have : v.toNat / 2 ^ 63 % 2 = 1 ↔ 2 ^ 63 ≤ v.toNat := by omega
  rw [signBit, BitVec.getLsbD, Nat.testBit_eq_decide_div_mod_eq]
  simp only [this]

theorem expField_toNat (f : Word) : (expField f).toNat = f.toNat / 2 ^ 52 % 2 ^ 11 := by
  rw [expField, BitVec.extractLsb'_toNat, Nat.shiftRight_eq_div_pow]

theorem fracField_toNat (f : Word) : (fracField f).toNat = f.toNat % 2 ^ 52 := by
  rw [fracField, BitVec.extractLsb'_toNat, Nat.shiftRight_zero]

theorem significand_toNat (f : Word) : (significand f).toNat = 2 ^ 52 + f.toNat % 2 ^ 52 := by
  rw [significand, BitVec.toNat_ofNat, fracField_toNat]
  omega

theorem packFloat_toNat (s : Bool) (e : BitVec 11) (t : BitVec 52) :
    (packFloat s e t).toNat = s.toNat * 2 ^ 63 + e.toNat * 2 ^ 52 + t.toNat := by
  have ht := t.isLt
  have he := e.isLt
  have h1 : (packFloat s e t).toNat = ((s.toNat <<< 11 ||| e.toNat) <<< 52) ||| t.toNat := by
    change BitVec.toNat (w := 1 + 11 + 52) (BitVec.ofBool s ++ e ++ t) = _
    rw [BitVec.toNat_append, BitVec.toNat_append, BitVec.toNat_ofBool]
  rw [h1, ← Nat.shiftLeft_add_eq_or_of_lt he, ← Nat.shiftLeft_add_eq_or_of_lt ht, Nat.shiftLeft_eq, Nat.shiftLeft_eq]
  ring

theorem withSign_toNat (neg : Bool) (f : Word) : (withSign neg f).toNat = neg.toNat * 2 ^ 63 + f.toNat % 2 ^ 63 := by
  have hf : f.toNat % 2 ^ 63 < 2 ^ 63 := Nat.mod_lt _ (by norm_num)
  have h1 : (withSign neg f).toNat = (neg.toNat <<< 63) ||| f.toNat % 2 ^ 63 := by
    change BitVec.toNat (w := 1 + 63) (BitVec.ofBool neg ++ f.extractLsb' 0 63) = _
    rw [BitVec.toNat_append, BitVec.toNat_ofBool, BitVec.extractLsb'_toNat, Nat.shiftRight_zero]
  rw [h1, ← Nat.shiftLeft_add_eq_or_of_lt hf, Nat.shiftLeft_eq]

theorem coarseIndex_toNat (q : Word) : (coarseIndex q).toNat = q.toNat / 2 ^ 54 % 2 ^ 8 := by
  rw [coarseIndex, BitVec.extractLsb'_toNat, Nat.shiftRight_eq_div_pow]

theorem epsilon_toNat (q : Word) : (epsilon q).toNat = q.toNat % 2 ^ 54 := by
  rw [epsilon, BitVec.extractLsb'_toNat, Nat.shiftRight_zero]

theorem radians_toNat (c : Config) (eps : BitVec 54) :
    (radians c eps).toNat = eps.toNat * 8 * c.tauBits.toNat / 2 ^ 64 := by
  have h := eps.isLt
  have hs : (shl64 (eps.setWidth 64) 3).toNat = eps.toNat * 8 := by
    rw [shl64_toNat, BitVec.toNat_setWidth]
    omega
  rw [radians, mulhi_toNat, hs, constAt_tau]

theorem quarterTurn_toNat : quarterTurn.toNat = 2 ^ 62 := by decide
theorem halfTurn_toNat : halfTurn.toNat = 2 ^ 63 := by decide

theorem reflect_toNat {r : Word} (h : r.toNat < 2 ^ 63) :
    (reflect r).toNat = if r.toNat < 2 ^ 62 then r.toNat else 2 ^ 63 - r.toNat := by
  have hlt : (r < quarterTurn) ↔ r.toNat < 2 ^ 62 := by rw [BitVec.lt_def, quarterTurn_toNat]
  by_cases hr : r.toNat < 2 ^ 62
  · rw [reflect, if_pos (hlt.2 hr), if_pos hr]
  · rw [reflect, if_neg (fun h' => hr (hlt.1 h')), if_neg hr, sub64_toNat (by rw [halfTurn_toNat]; exact h.le),
      halfTurn_toNat]

theorem correct_toNat (c : Config) (idx : BitVec 8) (b : Word) :
    (correct c idx b).toNat = refCorrect c idx.toNat b.toNat := by
  by_cases h : idx = 0
  · simp [correct, refCorrect, h]
  · have h0 : idx.toNat ≠ 0 := fun h' => h (BitVec.eq_of_toNat_eq h')
    rw [correct, if_neg h, satAdd_toNat, mulhi_toNat, refCorrect, if_neg h0, refCurve_eq, ← mirror_toNat h, refCurve_eq]

end Sys2Proof.Machine
end

