-- ==== Sys2Proof/Laws/PerInstr.lean ====
section
/-! SUPPORT. A family of laws with one lemma per command: the fields of its word are its opcode, 0 and its immediate
(30_encoding.md R60). -/

namespace Sys2Proof.Laws.EncodedFields

/-- The three fields of an instruction's word are the ones its encoding is made of. -/
def Statement (i : Instr) : Prop :=
  opField (encode i) = opBits i ∧ rsvField (encode i) = 0 ∧ immField (encode i) = immBits i

/-- The fields of `{op, 0, imm}`. -/
theorem fields_of_word (op : BitVec 4) (imm : BitVec 8) :
    opField (op ++ (0 : BitVec 4) ++ imm) = op ∧ rsvField (op ++ (0 : BitVec 4) ++ imm) = 0 ∧
      immField (op ++ (0 : BitVec 4) ++ imm) = imm := by
  revert op imm
  decide +kernel

theorem raw : Statement .raw := fields_of_word _ _
theorem f2x (off : Int) : Statement (.f2x off) := fields_of_word _ _
theorem x2f (off : Int) : Statement (.x2f off) := fields_of_word _ _
theorem mul : Statement .mul := fields_of_word _ _
theorem addw : Statement .addw := fields_of_word _ _
theorem adds : Statement .adds := fields_of_word _ _
theorem sin : Statement .sin := fields_of_word _ _
theorem cos : Statement .cos := fields_of_word _ _
theorem sinf : Statement .sinf := fields_of_word _ _
theorem cosf : Statement .cosf := fields_of_word _ _
theorem ldc (k : ConstName) : Statement (.ldc k) := fields_of_word _ _

end Sys2Proof.Laws.EncodedFields
end

