-- ==== Sys2Proof/Laws/Step.lean ====
section
/-! SUPPORT. What `exec` and `step` can do, once: every command answers the oldest request by its own response, and a turn of
the engine is one of two cases. -/

namespace Sys2Proof.Machine

/-- Executing a command is answering the oldest request with the command's response. -/
theorem exec_eq_command (i : Instr) (s : State) : exec i s = command (responseOf i) s := by
  cases i <;> rfl

theorem exec_withOldest (i : Instr) (s : State) (q : Request) :
    exec i (s.withOldest q) = .next (s.withResponse (responseOf i s.config q)) := by
  rw [exec_eq_command, command_withOldest]

theorem respond_of_decode {c : Config} {q : Request} {i : Instr} (h : decode q.cmd = .ok i) :
    respond c q = responseOf i c q := by
  simp [respond, h]

theorem respond_of_reserved {c : Config} {q : Request} {e : ReservedKind} (h : decode q.cmd = .error e) :
    respond c q = .ill := by
  simp [respond, h, raise]

theorem step_of_pending_nil {s : State} (h : s.pending = []) : step s = .next s := by
  simp [step, State.oldest, h]

/-- A turn with a request in flight answers it, by the pure function of 10_state.md R20. -/
theorem step_withOldest (s : State) (q : Request) :
    step (s.withOldest q) = .next (s.withResponse (respond s.config q)) := by
  cases hd : decode q.cmd with
  | ok i =>
    rw [respond_of_decode hd, ← exec_withOldest]
    simp [step, State.oldest, hd]
  | error e =>
    rw [respond_of_reserved hd]
    simp [step, State.oldest, hd, illegal, raise]

/-- Everything a turn can do. -/
theorem step_next_cases {s t : State} (h : step s = .next t) :
    (s.pending = [] ∧ t = s) ∨
    ∃ q rest, s.pending = q :: rest ∧ t = State.withResponse { s with pending := rest } (respond s.config q) := by
  cases hp : s.pending with
  | nil =>
    rw [step_of_pending_nil hp] at h
    exact .inl ⟨rfl, (Host.Outcome.next.inj h).symm⟩
  | cons q rest =>
    rw [State.eq_withOldest hp, step_withOldest] at h
    exact .inr ⟨q, rest, rfl, (Host.Outcome.next.inj h).symm⟩

@[simp] theorem afterTurn_of_pending_nil {s : State} (h : s.pending = []) : s.afterTurn = s := by
  simp [State.afterTurn, step_of_pending_nil h]

@[simp] theorem afterTurn_withOldest (s : State) (q : Request) :
    (s.withOldest q).afterTurn = s.withResponse (respond s.config q) := by
  simp [State.afterTurn, step_withOldest]

/-- The read-only spaces stay (20_memory.md R40). -/
theorem step_config {s t : State} (h : step s = .next t) : t.config = s.config := by
  obtain ⟨-, rfl⟩ | ⟨q, rest, -, rfl⟩ := step_next_cases h
  · rfl
  · rfl

/-- One request sent to a quiet block is answered by its own response and leaves the block as it was. -/
theorem exchange_of_quiet {s : State} (h : s.Quiet) (q : Request) : exchange s q = some (respond s.config q, s) := by
  obtain ⟨c, p, r⟩ := s
  obtain ⟨hp, hr⟩ := h
  simp only at hp hr
  subst hp hr
  have := afterTurn_withOldest ⟨c, [], []⟩ q
  simp only [State.withOldest, State.withResponse, List.nil_append] at this
  simp only [exchange, State.request, List.nil_append, this, State.take]

/-- A line whose request is `q`, run on a quiet block: all it changes is the temporaries it names. -/
theorem runLine_of_quiet {l : Line} {temps : Temps} {s : State} {q : Request} (h : s.Quiet)
    (hq : assemble temps l = some q) :
    runLine l temps s =
      some (assign (assign temps l.dst (respond s.config q).y) l.flags ((respond s.config q).fl.setWidth 64), s) := by
  simp only [runLine, hq, exchange_of_quiet h]

/-- An admitted table stays admitted: the read-only spaces are the machine's memory, and a step keeps their form
(20_memory.md R43). -/
theorem step_admitted {s t : State} (h : step s = .next t) (ha : s.config.Admitted) : t.config.Admitted := by
  rw [step_config h]
  exact ha

end Sys2Proof.Machine
end

