-- ==== Sys2Proof/Tests/Slice0.lean ====
section
/-! SUPPORT. The model's own tests. Expected values are the spec's own examples and vectors (95_test_vectors.md, named S<n>
or by section) or hand calculation from its encodings; the last part gives, for every statement with hypotheses, values that
meet them. -/

namespace Sys2Proof.Tests

open Sys2Proof.Machine

/-! ### Helpers -/

/-- A block right after reset to which one request was transferred. -/
def one (cmd : CommandWord) (a b : Word) : State := State.reset.request { cmd := cmd, a := a, b := b }

/-- The response of one turn: RSP.Y and rsp_fl. -/
def answer (cmd : CommandWord) (a b : Word) : Option (Word × BitVec 4) :=
  match (one cmd a b).afterTurn.responses with
  | [r] => some (r.y, r.fl)
  | _ => none

/-- A table of zeros, which meets 20_memory.md R43. -/
def flatConfig : Config := { curve := Vector.replicate 256 0, tauBits := 0 }

theorem flatConfig_admitted : flatConfig.Admitted := by
  simp [Config.Admitted, flatConfig]

/-! ### WellFormed: an ill-formed term for each check -/

theorem test_f2x_offset_above_range_is_ill_formed : (Instr.f2x 128).wellFormed = false := by decide
theorem test_f2x_offset_below_range_is_ill_formed : (Instr.f2x (-129)).wellFormed = false := by decide
theorem test_x2f_offset_above_range_is_ill_formed : (Instr.x2f 128).wellFormed = false := by decide
theorem test_x2f_offset_below_range_is_ill_formed : (Instr.x2f (-129)).wellFormed = false := by decide
theorem test_end_offsets_are_well_formed :
    (Instr.f2x (-128)).wellFormed = true ∧ (Instr.x2f 127).wellFormed = true := by decide

/-! ### Decode: words written out bit by bit from 30_encoding.md R60, R63 -/

theorem test_decode_raw : decode 0b0000_0000_00000000 = .ok .raw := by decide
theorem test_decode_f2x : decode 0b0001_0000_00001001 = .ok (.f2x 9) := by decide
theorem test_decode_f2x_negative_offset : decode 0b0001_0000_11111111 = .ok (.f2x (-1)) := by decide
theorem test_decode_x2f : decode 0b0010_0000_00000011 = .ok (.x2f 3) := by decide
theorem test_decode_x2f_least_offset : decode 0b0010_0000_10000000 = .ok (.x2f (-128)) := by decide
theorem test_decode_mul : decode 0b0011_0000_00000000 = .ok .mul := by decide
theorem test_decode_addw : decode 0b0100_0000_00000000 = .ok .addw := by decide
theorem test_decode_adds : decode 0b0101_0000_00000000 = .ok .adds := by decide
theorem test_decode_sin : decode 0b0110_0000_00000000 = .ok .sin := by decide
theorem test_decode_cos : decode 0b0111_0000_00000000 = .ok .cos := by decide
theorem test_decode_sinf : decode 0b1000_0000_00000000 = .ok .sinf := by decide
theorem test_decode_cosf : decode 0b1001_0000_00000000 = .ok .cosf := by decide
theorem test_decode_ldc_tau : decode 0b1010_0000_00000000 = .ok (.ldc .tau) := by decide
theorem test_decode_ldc_deg360 : decode 0b1010_0000_00000001 = .ok (.ldc .deg360) := by decide
theorem test_decode_reserved_by_kind :
    decode 0xB000 = .error .opcode ∧ decode 0xFFFF = .error .opcode ∧ decode 0x1F00 = .error .reservedBits ∧
    decode 0xA101 = .error .reservedBits ∧ decode 0x3001 = .error .immediate ∧ decode 0xA002 = .error .immediate := by
  decide
theorem test_encode_words :
    encode (.f2x (-128)) = 0x1080 ∧ encode (.x2f 127) = 0x207F ∧ encode .cosf = 0x9000 ∧ encode (.ldc .deg360) = 0xA001 := by
  decide
theorem test_decode_table_word :
    decodeTableWord 16 0x1003 = some (.f2x 3) ∧ decodeTableWord 16 0xB000 = none := by decide
theorem test_fetch_word_runs_after_reset :
    (State.reset.withFetchWord 16 0xA001).afterTurn.responses = [.ok 0xB400000000000000 false false] := by decide +kernel

/-! ### One turn: the vectors of 95_test_vectors.md -/

theorem test_raw : answer 0x0000 0x7FF8000000000000 0xFFFFFFFFFFFFFFFF = some (0x7FF8000000000000, 0x0) := by
  decide +kernel
theorem test_f2x_negative_wraps : answer 0x1000 0xBFD0000000000000 0 = some (0xC000000000000000, 0x0) := by  -- S4
  decide +kernel
theorem test_f2x_nan_is_unrep : answer 0x1000 0x7FF0000000000001 0 = some (0, 0x1) := by decide +kernel  -- 2.2
theorem test_x2f_truncates : answer 0x2000 0xFFFFFFFFFFFFFFFF 0 = some (0x3FEFFFFFFFFFFFFF, 0x0) := by  -- 2.3
  decide +kernel
theorem test_x2f_least_exponent : answer 0x2080 1 0 = some (0x33F0000000000000, 0x0) := by decide +kernel  -- 2.3
theorem test_mul : answer 0x3000 0x123456789ABCDEF0 0xFEDCBA9876543210 = some (0x121FA00AD77D7422, 0x0) := by  -- 2.4
  decide +kernel
theorem test_mul_largest : answer 0x3000 0xFFFFFFFFFFFFFFFF 0xFFFFFFFFFFFFFFFF = some (0xFFFFFFFFFFFFFFFE, 0x0) := by
  decide +kernel  -- 2.4
theorem test_addw_wraps : answer 0x4000 0x123456789ABCDEF0 0xFEDCBA9876543210 = some (0x1111111111111100, 0x0) := by
  decide +kernel  -- 2.5
theorem test_adds_clamps : answer 0x5000 0xFFFFFFFFFFFFFFFF 1 = some (0xFFFFFFFFFFFFFFFF, 0x0) := by  -- 2.5
  decide +kernel
theorem test_adds_below_clamp : answer 0x5000 0x7FFFFFFFFFFFFFFF 1 = some (0x8000000000000000, 0x0) := by  -- 2.5
  decide +kernel
theorem test_sin_table_and_correction : answer 0x6000 0x0123456789ABCDEF 0 = some (0x0725E1D37D0486CF, 0x0) := by  -- 2.7
  decide +kernel
theorem test_sin_second_half : answer 0x6000 0x9555555555555555 0 = some (0x8000118127555D82, 0x4) := by  -- 2.7
  decide +kernel
theorem test_cos_reflected : answer 0x7000 0x2AAAAAAAAAAAAAAA 0 = some (0x8000118127555D87, 0x0) := by  -- 2.8
  decide +kernel
theorem test_cos_of_half_turn : answer 0x7000 0x8000000000000000 0 = some (0, 0xC) := by decide +kernel  -- 2.8
theorem test_sinf : answer 0x8000 0x0A3D70A3D70A3D70 0 = some (0x3FCFD5359DA31CAB, 0x0) := by decide +kernel  -- 2.7
theorem test_sinf_of_half_turn : answer 0x8000 0x8000000000000000 0 = some (0x8000000000000000, 0x4) := by  -- 2.7
  decide +kernel
theorem test_cosf : answer 0x9000 0x0123456789ABCDEF 0 = some (0x3FEFFCD64DABCA02, 0x0) := by decide +kernel  -- 2.8
theorem test_cosf_of_quarter_turn : answer 0x9000 0x4000000000000000 0 = some (0x8000000000000000, 0x4) := by  -- 2.8
  decide +kernel
theorem test_ldc_tau : answer 0xA000 0xFFFFFFFFFFFFFFFF 0x7FF8000000000000 = some (0xC90FDAA22168C235, 0x0) := by  -- 2.6
  decide +kernel
theorem test_reserved_word_with_nan_is_ill : answer 0x1100 0x7FF8000000000000 0 = some (0, 0x2) := by  -- 2.9
  decide +kernel
/-- Program P1 of 95_test_vectors.md: 180.0 degrees in half a turn. -/
theorem test_degrees_of_a_half_turn :
    ((runLines (asDeg 0 1 2 (.literal 0x8000000000000000)) [] State.reset).bind fun p => p.1.lookup 0) =
      some 0x4066800000000000 := by decide +kernel

/-! ### Witnesses: values that meet the hypotheses of the statements -/

theorem witness_ImmediateIsReadByItsOpcode : (127 : Nat) < 256 ∧ (128 : Nat) < 256 ∧ (255 : Nat) < 256 := by decide

/-- One word for each kind of reserved word, at the ends of the ranges. -/
theorem witness_ReservedWordsAnswerIll :
    (11 ≤ (0xB000 : CommandWord).toNat / 4096 ∧ 11 ≤ (0xFFFF : CommandWord).toNat / 4096) ∧
    ((0x0100 : CommandWord).toNat / 256 % 16 ≠ 0 ∧ (0xAF00 : CommandWord).toNat / 256 % 16 ≠ 0) ∧
    ((0x0001 : CommandWord).toNat % 256 ≠ 0 ∧ (0x0001 : CommandWord).toNat / 4096 = 0) ∧
    ((0x30FF : CommandWord).toNat % 256 ≠ 0 ∧ 3 ≤ (0x30FF : CommandWord).toNat / 4096 ∧
      (0x9001 : CommandWord).toNat % 256 ≠ 0 ∧ (0x9001 : CommandWord).toNat / 4096 ≤ 9) ∧
    (2 ≤ (0xA002 : CommandWord).toNat % 256 ∧ (0xA002 : CommandWord).toNat / 4096 = 10) := by decide

theorem witness_DecodeOfEncodeIsTheCommand :
    (Instr.f2x (-128)).wellFormed = true ∧ (Instr.x2f 127).wellFormed = true ∧ Instr.sin.wellFormed = true := by decide

theorem witness_EncodeOfDecodeIsTheWord : decode 0x10FF = .ok (.f2x (-1)) := by decide

theorem witness_StepRunsTheDecodedCommand :
    decode ({ cmd := 0x6000, a := 5, b := 0 } : Request).cmd = .ok .sin := by decide

theorem witness_NoRequestNoChange : State.reset.pending = [] := rfl

/-- Both ends of both ranges of unrepresentable patterns, and patterns just outside them. -/
theorem witness_UnrepExactlyForSubnormalInfiniteAndNan :
    ([0x0000000000000001, 0x000FFFFFFFFFFFFF, 0x8000000000000001, 0x7FF0000000000000, 0xFFFFFFFFFFFFFFFF].all
      fun a : Word => decide ((1 ≤ a.toNat % 2 ^ 63 ∧ a.toNat % 2 ^ 63 ≤ 0x000FFFFFFFFFFFFF) ∨
        0x7FF0000000000000 ≤ a.toNat % 2 ^ 63)) = true ∧
    ([0x0000000000000000, 0x8000000000000000, 0x0010000000000000, 0x7FEFFFFFFFFFFFFF].all
      fun a : Word => !decide ((1 ≤ a.toNat % 2 ^ 63 ∧ a.toNat % 2 ^ 63 ≤ 0x000FFFFFFFFFFFFF) ∨
        0x7FF0000000000000 ≤ a.toNat % 2 ^ 63)) = true ∧
    ∀ off, Instr.x2f 0 ≠ .f2x off :=
  ⟨by decide +kernel, by decide +kernel, fun off => by simp⟩

/-- A normal float in the middle, one with a shift of exactly 64, one with a shift of exactly -53. -/
theorem witness_F2xOfNormalIsTheScaledFloor :
    (expField 0x3FF8000000000000 ≠ 0 ∧ expField 0x3FF8000000000000 ≠ 2047) ∧
    (expField 0x4330000000000001 ≠ 0 ∧ expField 0x4330000000000001 ≠ 2047 ∧
      64 ≤ ((expField 0x4330000000000001).toNat : Int) - 1011 - 0) ∧
    (expField 0x3BE0000000000000 ≠ 0 ∧ expField 0x3BE0000000000000 ≠ 2047 ∧
      ((expField 0x3BE0000000000000).toNat : Int) - 1011 - 0 ≤ -53) := by decide +kernel

theorem witness_F2xWrapsModuloItsRange :
    expField 0x3FF8000000000000 ≠ 0 ∧ expField 0x3FF8000000000000 ≠ 2047 ∧
      (0x3FF8000000000000 : Word).getLsbD 63 = false := by decide +kernel

/-- A normal float, and a zero. -/
theorem witness_F2xOfNegatedFloatIsNegatedWord :
    ((expField 0x3FD0000000000000 = 0 → fracField 0x3FD0000000000000 = 0) ∧ expField 0x3FD0000000000000 ≠ 2047) ∧
    ((expField 0x8000000000000000 = 0 → fracField 0x8000000000000000 = 0) ∧ expField 0x8000000000000000 ≠ 2047) := by
  decide +kernel

/-- The end offsets, a word with few significant bits and one with all 64. -/
theorem witness_X2fIsNormalAndTruncates :
    offsetInRange (-128) = true ∧ offsetInRange 127 = true ∧ (0x8000000000000000 : Word) ≠ 0 ∧
      (0xFFFFFFFFFFFFFFFF : Word) ≠ 0 ∧
      2 ^ (Nat.log2 (0x8000000000000000 : Word).toNat - 52) ∣ (0x8000000000000000 : Word).toNat := by decide +kernel

theorem witness_F2xOfX2fKeepsTheTop53Bits : offsetInRange (-128) = true ∧ offsetInRange 127 = true := by decide

/-- 2^-12, the least float of the range at offset 0, and 1 - 2^-53, the largest. -/
theorem witness_X2fOfF2xIsExactInTheTopRange :
    offsetInRange 0 = true ∧
    (expField 0x3F30000000000000 ≠ 0 ∧ expField 0x3F30000000000000 ≠ 2047 ∧
      (0x3F30000000000000 : Word).getLsbD 63 = false ∧
      2 ^ ((0 : Int) - 12) ≤ normalMagnitude 0x3F30000000000000 ∧ normalMagnitude 0x3F30000000000000 < 2 ^ (0 : Int)) ∧
    (expField 0x3FEFFFFFFFFFFFFF ≠ 0 ∧ expField 0x3FEFFFFFFFFFFFFF ≠ 2047 ∧
      (0x3FEFFFFFFFFFFFFF : Word).getLsbD 63 = false ∧
      2 ^ ((0 : Int) - 12) ≤ normalMagnitude 0x3FEFFFFFFFFFFFFF ∧ normalMagnitude 0x3FEFFFFFFFFFFFFF < 2 ^ (0 : Int)) := by
  have e1 : (expField 0x3F30000000000000).toNat = 1011 := by decide +kernel
  have t1 : (fracField 0x3F30000000000000).toNat = 0 := by decide +kernel
  have e2 : (expField 0x3FEFFFFFFFFFFFFF).toNat = 1022 := by decide +kernel
  have t2 : (fracField 0x3FEFFFFFFFFFFFFF).toNat = 2 ^ 52 - 1 := by decide +kernel
  refine ⟨by decide, ⟨by decide +kernel, by decide +kernel, by decide +kernel, ?_, ?_⟩,
    by decide +kernel, by decide +kernel, by decide +kernel, ?_, ?_⟩ <;>
  simp only [normalMagnitude, e1, t1, e2, t2] <;> norm_num

theorem witness_LdcReadsTheConstants :
    (2 : Nat) ≤ 2 ∧ (2 : Nat) < 256 ∧ (0xA002 : CommandWord) = BitVec.ofNat 16 (0xA000 + 2) ∧
    (2 : Nat) ≤ 255 ∧ (255 : Nat) < 256 ∧ (0xA0FF : CommandWord) = BitVec.ofNat 16 (0xA000 + 255) := by decide

theorem witness_AngleInUnitsStaysBelowOneRotation :
    ({ cmd := 0x3000, a := 0xB400000000000000, b := 1 } : Request).a = 0xB400000000000000 ∧
    ({ cmd := 0x3000, a := 0xC90FDAA22168C235, b := 1 } : Request).a = State.reset.config.tauBits ∧
    State.reset.config.tauBits ≠ 0 := by decide +kernel

/-- The word 0; a word whose top 1 bit is bit 0, and one whose top 1 bit is bit 63. -/
theorem witness_ClzCountsFromTheTopBit :
    (0 : Word) = 0 ∧ ((1 : Word).getLsbD 0 = true ∧ ∀ j, 0 < j → (1 : Word).getLsbD j = false) ∧
    ((0x8000000000000001 : Word).getLsbD 63 = true ∧ ∀ j, 63 < j → (0x8000000000000001 : Word).getLsbD j = false) := by
  refine ⟨rfl, ⟨by decide, fun j hj => ?_⟩, by decide, fun j hj => ?_⟩
  · have : j ≠ 0 := by omega
    simp [this]
  · exact BitVec.getLsbD_of_ge _ _ (by omega)

theorem witness_SupplementaryAnglesHaveOneSine :
    0 < (1 : Word).toNat ∧ (1 : Word).toNat < 2 ^ 63 ∧
    0 < (0x7FFFFFFFFFFFFFFF : Word).toNat ∧ (0x7FFFFFFFFFFFFFFF : Word).toNat < 2 ^ 63 := by decide

theorem witness_SineIsOdd :
    ((1 : Word) ≠ 0 ∧ (1 : Word) ≠ 0x8000000000000000) ∧
    ((0 : Word) = 0 ∨ (0 : Word) = 0x8000000000000000) ∧
    ((0x8000000000000000 : Word) = 0 ∨ (0x8000000000000000 : Word) = 0x8000000000000000) := by decide

/-- An ordinary angle, and the two angles whose cosine is 0 (95_test_vectors.md 2.8). -/
theorem witness_CosineIsEven :
    ((0 : Word) ≠ 0x4000000000000000 ∧ (0 : Word) ≠ 0xC000000000000000) ∧
    answer 0x7000 0x4000000000000000 0 = some (0, 0x4) ∧ answer 0x7000 0xC000000000000000 0 = some (0, 0x0) := by
  decide +kernel

theorem witness_TableEntriesShowAsSines :
    ((1 : Fin 256) ≠ 0 ∧ ({ cmd := 0x6000, a := 0x0040000000000000, b := 0 } : Request).a =
      BitVec.ofNat 64 ((1 : Fin 256).val * 2 ^ 54)) ∧
    ((255 : Fin 256) ≠ 0 ∧ ({ cmd := 0x6000, a := 0x3FC0000000000000, b := 0 } : Request).a =
      BitVec.ofNat 64 ((255 : Fin 256).val * 2 ^ 54)) := by decide +kernel

/-- An angle of the first quadrant and one of the second; the two end indices of the table, the second with a sum that is
clamped (95_test_vectors.md 2.7). -/
theorem witness_SineIntermediatesStayInRange :
    ((1 : BitVec 8) ≠ 0 ∧ (255 : BitVec 8) ≠ 0 ∧
      correct defaultConfig 1 (radians defaultConfig 1) = 0x01921F0FE6700716 ∧
      correct defaultConfig 255 (radians defaultConfig 0x3FFFFFFFFFFFFF) = 0xFFFFFFFFFFFFFFFF) ∧
    belowHalf 0x3FFFFFFFFFFFFFFF ≠ quarterTurn ∧
    (belowHalf 0x4000000000000001 ≠ quarterTurn ∧ ¬ belowHalf 0x4000000000000001 < quarterTurn) := by decide +kernel

theorem witness_CommandsChangeOnlyTheirOwnRequest :
    (one 0x3000 2 3).pending = { cmd := 0x3000, a := 2, b := 3 } :: [] ∧
    exec .mul (one 0x3000 2 3) = .next (State.reset.withResponse (plain (mulhi 2 3))) := ⟨rfl, rfl⟩

/-- A reserved word: it decodes to no command. -/
theorem witness_FlagsComeOnlyFromTheirCommands :
    ∀ i, decode ({ cmd := 0xB000, a := 0, b := 0 } : Request).cmd ≠ .ok i := by
  have h : decode 0xB000 = .error .opcode := by decide
  intro i hi
  exact nomatch h.symm.trans hi

theorem witness_IllegalWordWinsOverUnrepresentableOperand :
    step (State.reset.withOldest { cmd := 0x1000, a := 1, b := 0 }) = .next (State.reset.withResponse .unrep) := rfl

theorem witness_PortFieldsEncodeTheResponse : Response.unrep.status ≠ .ok ∧ Response.ill.status ≠ .ok := by decide

/-- Two blocks of one configuration that hold different things. -/
theorem witness_ResponseDependsOnRequestAndConfigurationOnly :
    (one 0x0000 1 1).config = (State.reset.withResponse .ill).config ∧
    (one 0x0000 1 1).pending ≠ (State.reset.withResponse .ill).pending := ⟨rfl, by decide⟩

theorem witness_UnusedOperandsAreIgnored :
    (Instr.sin ≠ .mul ∧ Instr.sin ≠ .addw ∧ Instr.sin ≠ .adds) ∧ Instr.ldc .tau = .ldc .tau := by decide

/-- A session in which a reserved word is answered and the response taken. -/
theorem witness_ResponsesComeInRequestOrder :
    ((Session.start flatConfig).run [.request { cmd := 0xB000, a := 0, b := 0 }, .work, .take]).taken[0]? = some .ill := by
  decide +kernel

/-- A session with a response taken, one offered and a request in flight. -/
theorem witness_EveryMoveKeepsTheResponseOrder :
    let q : Request := { cmd := 0xB000, a := 0, b := 0 }
    let h : Session := { block := { config := flatConfig, pending := [q], responses := [.ill] },
                         issued := [q, q, q], taken := [.ill] }
    h.taken ++ h.block.responses ++ h.block.pending.map (respond h.block.config) =
      h.issued.map (respond h.block.config) := by decide +kernel

/-- A state of an admitted table with a response offered and a request in flight. -/
theorem witness_EveryTurnKeepsTheInvariant :
    let s : State := { config := flatConfig, pending := [{ cmd := 0xB000, a := 0, b := 0 }],
                       responses := [.ok 0xBFF0000000000000 true true] }
    s.Inv ∧ step s = .next { config := flatConfig, pending := [], responses := [.ok 0xBFF0000000000000 true true, .ill] } :=
  ⟨⟨flatConfig_admitted, by decide⟩, rfl⟩

theorem witness_SessionsKeepTheInvariant : flatConfig.Admitted := flatConfig_admitted

theorem witness_AssertResetDropsWhatIsOwedAndNothingElse :
    (State.reset.withResponse .ill).config = (one 0x0000 1 1).config := rfl

theorem witness_LineRunsAsItsRequest :
    (Instr.f2x (-128)).wellFormed = true ∧ (Source.temp 7).word [(7, 5)] = some 5 ∧
    Source.omitted.word [(7, 5)] = some 0 ∧ State.reset.Quiet := ⟨by decide, by decide, by decide, rfl, rfl⟩

/-- A quiet block; a literal and a host temporary as operand, neither of them temporary 1, the `t1` of the expansions. -/
theorem witness_PseudoCommandsComputeTheirFunctions :
    State.reset.Quiet ∧ (0 : Nat) ≠ 1 ∧
    ((Source.literal 5).word [] = some 5 ∧ Source.literal 5 ≠ .temp 1) ∧
    ((Source.temp 7).word [(7, 9)] = some 9 ∧ Source.temp 7 ≠ .temp 1) :=
  ⟨⟨rfl, rfl⟩, by decide, by decide, by decide⟩

end Sys2Proof.Tests
end

section
/-! The flags of a response and the command, operand or word they come from (10_state.md R26), and the response as a function
of configuration and request (R20). -/

namespace Sys2Proof.Machine

/-! ### Statuses -/

theorem respond_of_undecodable {q : Request} (c : Config) (h : ∀ i, decode q.cmd ≠ .ok i) : respond c q = .ill := by
  cases hd : decode q.cmd with
  | ok i => exact absurd hd (h i)
  | error e => exact respond_of_reserved hd

/-- Everything F2X can answer (41_fixed_convert.md R91): UNREP, or a result with both flags 0. -/
theorem f2x_cases (off : Int) (f : Word) : f2x off f = .unrep ∨ ∃ y, f2x off f = plain y := by
  cases hf : floatClass f with
  | zero | normal => exact .inr ⟨_, by rw [f2x, hf]⟩
  | subnormal | infinite | nan => exact .inl (by rw [f2x, hf]; rfl)

theorem f2x_eq_unrep_iff (off : Int) (f : Word) :
    f2x off f = .unrep ↔ floatClass f = .nan ∨ floatClass f = .infinite ∨ floatClass f = .subnormal := by
  cases hf : floatClass f <;> simp [f2x, hf, plain, raise]

/-- Only F2X can fail: every other command answers a result. -/
theorem responseOf_ok_of_ne_f2x {i : Instr} (h : ¬ ∃ off, i = .f2x off) (c : Config) (q : Request) :
    ∃ y neg one, responseOf i c q = .ok y neg one := by
  cases i with
  | f2x off => exact absurd ⟨off, rfl⟩ h
  | raw | x2f | mul | addw | adds | sin | cos | sinf | cosf | ldc => exact ⟨_, _, _, rfl⟩

theorem responseOf_ne_ill (i : Instr) (c : Config) (q : Request) : responseOf i c q ≠ .ill := by
  by_cases h : ∃ off, i = .f2x off
  · obtain ⟨off, rfl⟩ := h
    obtain hu | ⟨y, hy⟩ := f2x_cases off q.a
    · simp [responseOf, f2xResponse, hu]
    · simp [responseOf, f2xResponse, hy, plain]
  · obtain ⟨y, neg, one, hr⟩ := responseOf_ok_of_ne_f2x h c q
    simp [hr]

theorem responseOf_eq_unrep_iff (i : Instr) (c : Config) (q : Request) :
    responseOf i c q = .unrep ↔ (∃ off, i = .f2x off) ∧
      (floatClass q.a = .nan ∨ floatClass q.a = .infinite ∨ floatClass q.a = .subnormal) := by
  by_cases h : ∃ off, i = .f2x off
  · obtain ⟨off, rfl⟩ := h
    simp [responseOf, f2xResponse, f2x_eq_unrep_iff]
  · obtain ⟨y, neg, one, hr⟩ := responseOf_ok_of_ne_f2x h c q
    simp [hr, h]

/-! ### NEG and ONE -/

/-- The angle whose sine a command evaluates (44_trig.md R121 to R124): the operand, for cosine advanced by a quarter turn;
none for a command that evaluates no sine. -/
def sineAngle (a : Word) : Instr → Option Word
  | .sin | .sinf => some a
  | .cos | .cosf => some (advance a)
  | .raw | .f2x _ | .x2f _ | .mul | .addw | .adds | .ldc _ => none

theorem any_sineAngle_iff (p : Word → Bool) (a : Word) (i : Instr) :
    (sineAngle a i).any p = true ↔
      ((i = .sin ∨ i = .sinf) ∧ p a = true) ∨ ((i = .cos ∨ i = .cosf) ∧ p (advance a) = true) := by
  cases i <;> simp [sineAngle]

theorem sincore_neg (c : Config) (x : Word) : (sincore c x).neg = signBit x := by
  by_cases h : belowHalf x = quarterTurn
  · rw [sincore, if_pos h]
  · rw [sincore, if_neg h]

theorem sincore_one (c : Config) (x : Word) : (sincore c x).one = decide (belowHalf x = quarterTurn) := by
  by_cases h : belowHalf x = quarterTurn
  · rw [sincore, if_pos h, decide_eq_true h]
  · rw [sincore, if_neg h, decide_eq_false h]

theorem f2x_flags (off : Int) (f : Word) : (f2x off f).neg = false ∧ (f2x off f).one = false := by
  obtain hu | ⟨y, hy⟩ := f2x_cases off f
  · rw [hu]
    exact ⟨rfl, rfl⟩
  · rw [hy]
    exact ⟨rfl, rfl⟩

/-- A command that evaluates a sine reports the two bits of its angle as flags, whatever the form of its result. -/
theorem responseOf_of_sineAngle {i : Instr} {q : Request} {x : Word} (c : Config) (h : sineAngle q.a i = some x) :
    ∃ y, responseOf i c q = .ok y (signBit x) (decide (belowHalf x = quarterTurn)) := by
  rw [← sincore_neg c, ← sincore_one c]
  cases i with
  | sin | sinf | cos | cosf =>
    obtain rfl := Option.some.inj h
    exact ⟨_, rfl⟩
  | raw | f2x | x2f | mul | addw | adds | ldc => exact nomatch h

theorem responseOf_flags_of_no_sineAngle {i : Instr} {q : Request} (c : Config) (h : sineAngle q.a i = none) :
    (responseOf i c q).neg = false ∧ (responseOf i c q).one = false := by
  cases i with
  | sin | sinf | cos | cosf => exact nomatch h
  | f2x off => exact f2x_flags off q.a
  | raw | x2f | mul | addw | adds | ldc => exact ⟨rfl, rfl⟩

/-- NEG and ONE of every command (10_state.md R26), as bits of the angle it evaluates. -/
theorem responseOf_flags (i : Instr) (c : Config) (q : Request) :
    (responseOf i c q).neg = (sineAngle q.a i).any signBit ∧
    (responseOf i c q).one = (sineAngle q.a i).any (fun x => decide (belowHalf x = quarterTurn)) := by
  cases h : sineAngle q.a i with
  | some x =>
    obtain ⟨y, hr⟩ := responseOf_of_sineAngle c h
    rw [hr]
    exact ⟨rfl, rfl⟩
  | none => exact responseOf_flags_of_no_sineAngle c h

theorem advance_toNat (x : Word) : (advance x).toNat = (x.toNat + 2 ^ 62) % 2 ^ 64 := by
  rw [advance, wrapAdd_toNat, quarterTurn_toNat]

theorem belowHalf_eq_quarterTurn_iff (x : Word) : belowHalf x = quarterTurn ↔ x.toNat % 2 ^ 63 = 2 ^ 62 := by
  rw [← BitVec.toNat_inj, belowHalf_toNat, quarterTurn_toNat]

/-- NEG in the numbers of 10_state.md R26. -/
theorem responseOf_neg_iff (i : Instr) (c : Config) (q : Request) :
    (responseOf i c q).neg = true ↔ ((i = .sin ∨ i = .sinf) ∧ 2 ^ 63 ≤ q.a.toNat) ∨
      ((i = .cos ∨ i = .cosf) ∧ 2 ^ 63 ≤ (q.a.toNat + 2 ^ 62) % 2 ^ 64) := by
  simp only [responseOf_flags, any_sineAngle_iff, signBit_eq, decide_eq_true_iff, advance_toNat]

/-- ONE in the numbers of 10_state.md R26. -/
theorem responseOf_one_iff (i : Instr) (c : Config) (q : Request) :
    (responseOf i c q).one = true ↔ ((i = .sin ∨ i = .sinf) ∧ q.a.toNat % 2 ^ 63 = 2 ^ 62) ∨
      ((i = .cos ∨ i = .cosf) ∧ (q.a.toNat + 2 ^ 62) % 2 ^ 64 % 2 ^ 63 = 2 ^ 62) := by
  simp only [responseOf_flags, any_sineAngle_iff, belowHalf_eq_quarterTurn_iff, decide_eq_true_iff, advance_toNat]

/-! ### The obligations -/

/-- Settles O38: a turn is the pure function, a command its own response, and each flag of that response has its lemma. -/
theorem flagsComeOnlyFromTheirCommands : Obligations.FlagsComeOnlyFromTheirCommands := by
  refine ⟨fun s q hq => ?_, fun i s q => ⟨responseOf i s.config q, exec_withOldest i s q, responseOf_ne_ill i s.config q,
    responseOf_eq_unrep_iff i s.config q, responseOf_neg_iff i s.config q, responseOf_one_iff i s.config q⟩⟩
  rw [step_withOldest, respond_of_undecodable s.config hq]

/-- Settles O41: the response of a turn is the pure function of the configuration and the request. -/
theorem responseDependsOnRequestAndConfigurationOnly : Obligations.ResponseDependsOnRequestAndConfigurationOnly := by
  intro s t q hc
  refine ⟨respond s.config q, step_withOldest s q, ?_⟩
  rw [hc]
  exact step_withOldest t q

end Sys2Proof.Machine
end

section
/-! The order of responses (20_memory.md R50): a block owes the host the responses it offers and then those of its requests
in flight, and every move keeps what was taken and what is owed together equal to the answers to the requests issued. -/

namespace Sys2Proof.Machine

/-! ### What a block owes the host -/

/-- The responses offered, then those of the requests in flight: what the host has still to receive if it issues nothing
more (60_exceptions.md R150). -/
def State.owed (s : State) : List Response := s.responses ++ s.pending.map (respond s.config)

@[simp] theorem State.assertReset_owed (s : State) : s.assertReset.owed = [] := rfl

@[simp] theorem State.request_owed (s : State) (q : Request) : (s.request q).owed = s.owed ++ [respond s.config q] := by
  simp [State.owed]

@[simp] theorem State.afterTurn_config (s : State) : s.afterTurn.config = s.config := by
  cases hp : s.pending with
  | nil => rw [afterTurn_of_pending_nil hp]
  | cons q rest =>
    rw [State.eq_withOldest hp, afterTurn_withOldest]
    rfl

/-- A turn only moves a response from the requests in flight to the responses offered. -/
@[simp] theorem State.afterTurn_owed (s : State) : s.afterTurn.owed = s.owed := by
  cases hp : s.pending with
  | nil => rw [afterTurn_of_pending_nil hp]
  | cons q rest =>
    rw [State.eq_withOldest hp, afterTurn_withOldest]
    simp [State.owed]

/-! ### Sessions -/

/-- No move of host or engine changes the read-only spaces (20_memory.md R40). -/
@[simp] theorem Session.move_config (h : Session) (m : Move) : (h.move m).block.config = h.block.config := by
  cases m with
  | request q => rfl
  | work => simp
  | reset => rfl
  | take =>
    cases hr : h.block.responses with
    | nil => rw [Session.move_take_of_nil hr]
    | cons r rest => rw [Session.move_take_of_cons hr]

/-- The responses taken, then those owed, answer the requests issued since the last reset, one for one and in order. -/
def Session.InOrder (h : Session) : Prop := h.taken ++ h.block.owed = h.issued.map (respond h.block.config)

theorem Session.start_inOrder (c : Config) : (Session.start c).InOrder := rfl

/-- Taking a response moves it from those owed to those taken. -/
theorem Session.move_take_owed (h : Session) :
    (h.move .take).taken ++ (h.move .take).block.owed = h.taken ++ h.block.owed := by
  cases hr : h.block.responses with
  | nil => rw [Session.move_take_of_nil hr]
  | cons r rest => simp [Session.move_take_of_cons hr, State.owed, hr]

theorem Session.move_take_issued (h : Session) : (h.move .take).issued = h.issued := by
  cases hr : h.block.responses with
  | nil => rw [Session.move_take_of_nil hr]
  | cons r rest => rw [Session.move_take_of_cons hr]

/-- The step lemma of 20_memory.md R50, from every session in order. -/
theorem Session.move_inOrder {h : Session} (ho : h.InOrder) (m : Move) : (h.move m).InOrder := by
  unfold Session.InOrder at ho ⊢
  cases m with
  | request q => simp [← ho]
  | work => simpa using ho
  | reset => simp
  | take => rw [Session.move_take_owed, Session.move_take_issued, Session.move_config, ho]

theorem Session.run_config (h : Session) (ms : List Move) : (h.run ms).block.config = h.block.config :=
  Session.run_induction (P := fun k => k.block.config = h.block.config) (fun k m hk => (k.move_config m).trans hk) rfl ms

theorem Session.run_inOrder {h : Session} (ho : h.InOrder) (ms : List Move) : (h.run ms).InOrder :=
  Session.run_induction (P := Session.InOrder) (fun _ m hk => Session.move_inOrder hk m) ho ms

/-- In a session in order the `n`-th response taken answers the `n`-th request issued. -/
theorem Session.InOrder.taken_answers_issued {h : Session} (ho : h.InOrder) {n : Nat} {r : Response}
    (hr : h.taken[n]? = some r) : ∃ q, h.issued[n]? = some q ∧ r = respond h.block.config q := by
  have hprefix : h.taken <+: h.issued.map (respond h.block.config) := ⟨h.block.owed, ho⟩
  obtain ⟨hn, rfl⟩ := List.getElem?_eq_some_iff.mp hr
  have hmap := List.prefix_iff_getElem?.mp hprefix n hn
  rw [List.getElem?_map, Option.map_eq_some_iff] at hmap
  obtain ⟨q, hq, hrq⟩ := hmap
  exact ⟨q, hq, hrq.symm⟩

/-! ### The obligation -/

/-- Settles O44: a fresh block's session is in order, and every move keeps it so and keeps the configuration. -/
theorem responsesComeInRequestOrder : Obligations.ResponsesComeInRequestOrder := by
  intro c moves h
  have hc : h.block.config = c := Session.run_config (Session.start c) moves
  have ho : h.InOrder := Session.run_inOrder (Session.start_inOrder c) moves
  refine ⟨?_, hc, fun n r hr => ?_⟩
  · rw [← hc, List.append_assoc]
    exact ho
  · rw [← hc]
    exact ho.taken_answers_issued hr

end Sys2Proof.Machine
end

section
/-! The decoder and the encoder as arithmetic (30_encoding.md R60, R61, R64): the fields of a word, the commands a word can
decode to, and the rows of R63 that select them. -/

namespace Sys2Proof

/-! ### The fields as numbers -/

theorem opField_toNat (w : CommandWord) : (opField w).toNat = w.toNat / 4096 := by
  have h := w.isLt
  rw [opField, BitVec.extractLsb'_toNat, Nat.shiftRight_eq_div_pow]
  omega

theorem rsvField_toNat (w : CommandWord) : (rsvField w).toNat = w.toNat / 256 % 16 := by
  rw [rsvField, BitVec.extractLsb'_toNat, Nat.shiftRight_eq_div_pow]

theorem immField_toNat (w : CommandWord) : (immField w).toNat = w.toNat % 256 := by
  rw [immField, BitVec.extractLsb'_toNat, Nat.shiftRight_zero]

theorem encode_fields (i : Instr) :
    opField (encode i) = opBits i ∧ rsvField (encode i) = 0 ∧ immField (encode i) = immBits i :=
  Laws.EncodedFields.fields_of_word _ _

/-- A word is its three fields. -/
theorem eq_encode_of_fields {w : CommandWord} {i : Instr} (hop : opField w = opBits i) (hrsv : rsvField w = 0)
    (himm : immField w = immBits i) : w = encode i := by
  obtain ⟨eop, ersv, eimm⟩ := encode_fields i
  have op := congrArg BitVec.toNat (hop.trans eop.symm)
  have rsv := congrArg BitVec.toNat (hrsv.trans ersv.symm)
  have imm := congrArg BitVec.toNat (himm.trans eimm.symm)
  simp only [opField_toNat, rsvField_toNat, immField_toNat] at op rsv imm
  apply BitVec.eq_of_toNat_eq
  omega

theorem encode_toNat (i : Instr) : (encode i).toNat = (opBits i).toNat * 4096 + (immBits i).toNat := by
  obtain ⟨op, rsv, imm⟩ := encode_fields i
  have hrsv : (encode i).toNat / 256 % 16 = 0 := by rw [← rsvField_toNat, rsv]; rfl
  rw [← op, ← imm, opField_toNat, immField_toNat]
  omega

/-! ### The immediate -/

theorem readNone_eq_ok_iff {imm : BitVec 8} {i j : Instr} : readNone imm j = .ok i ↔ imm = 0 ∧ j = i := by
  by_cases h : imm = 0
  · rw [readNone, if_pos h, Except.ok.injEq, and_iff_right h]
  · rw [readNone, if_neg h]
    exact iff_of_false nofun fun h' => h h'.1

theorem readConst_eq_ok {imm : BitVec 8} {i : Instr} (h : readConst imm = .ok i) : ∃ k, i = .ldc k ∧ imm = immBits i := by
  by_cases h0 : imm = 0
  · rw [readConst, if_pos h0] at h
    obtain rfl := Except.ok.inj h
    exact ⟨.tau, rfl, h0⟩
  · by_cases h1 : imm = 1
    · rw [readConst, if_neg h0, if_pos h1] at h
      obtain rfl := Except.ok.inj h
      exact ⟨.deg360, rfl, h1⟩
    · rw [readConst, if_neg h0, if_neg h1] at h
      exact nomatch h

theorem readOffset_eq (imm : BitVec 8) :
    readOffset imm = if imm.toNat < 128 then (imm.toNat : Int) else imm.toNat - 256 := by
  rw [readOffset, BitVec.toInt_eq_toNat_cond]
  split <;> split <;> omega

theorem offsetInRange_iff {off : Int} : offsetInRange off = true ↔ -128 ≤ off ∧ off ≤ 127 := by
  simp [offsetInRange]

theorem offsetInRange_readOffset (imm : BitVec 8) : offsetInRange (readOffset imm) = true := by
  have h := imm.isLt
  rw [offsetInRange_iff, readOffset_eq]
  split <;> omega

theorem readOffset_ofInt {off : Int} (h : offsetInRange off = true) : readOffset (BitVec.ofInt 8 off) = off := by
  obtain ⟨hlo, hhi⟩ := offsetInRange_iff.mp h
  rw [readOffset, BitVec.toInt_ofInt_eq_self (by omega) (by omega) (by omega)]

theorem ofInt_readOffset (imm : BitVec 8) : BitVec.ofInt 8 (readOffset imm) = imm := BitVec.ofInt_toInt

/-- The fields of the word numbered `op * 0x1000 + n`. -/
theorem fields_ofNat (op : Nat) {n : Nat} (hn : n < 256) :
    opField (BitVec.ofNat 16 (op * 0x1000 + n)) = BitVec.ofNat 4 op ∧
    rsvField (BitVec.ofNat 16 (op * 0x1000 + n)) = 0 ∧
    immField (BitVec.ofNat 16 (op * 0x1000 + n)) = BitVec.ofNat 8 n := by
  refine ⟨?_, ?_, ?_⟩ <;> apply BitVec.eq_of_toNat_eq
  · rw [opField_toNat, BitVec.toNat_ofNat, BitVec.toNat_ofNat]
    omega
  · rw [rsvField_toNat, BitVec.toNat_ofNat]
    change _ = 0
    omega
  · rw [immField_toNat, BitVec.toNat_ofNat, BitVec.toNat_ofNat]
    omega

theorem readOffset_ofNat {n : Nat} (hn : n < 256) :
    readOffset (BitVec.ofNat 8 n) = if n < 128 then (n : Int) else n - 256 := by
  rw [readOffset_eq, BitVec.toNat_ofNat, Nat.mod_eq_of_lt hn]

theorem ofNat_eq_iff {m n : Nat} (hm : m < 256) (hn : n < 256) : BitVec.ofNat 8 n = BitVec.ofNat 8 m ↔ n = m := by
  rw [← BitVec.toNat_inj, BitVec.toNat_ofNat, BitVec.toNat_ofNat, Nat.mod_eq_of_lt hm, Nat.mod_eq_of_lt hn]

theorem readConst_ofNat {n : Nat} (hn : n < 256) : readConst (BitVec.ofNat 8 n) =
    if n = 0 then .ok (.ldc .tau) else if n = 1 then .ok (.ldc .deg360) else .error .immediate := by
  simp only [readConst, ← ofNat_eq_iff (by decide : 0 < 256) hn, ← ofNat_eq_iff (by decide : 1 < 256) hn]
  rfl

theorem readNone_ofNat {n : Nat} (hn : n < 256) (i : Instr) :
    readNone (BitVec.ofNat 8 n) i = if n = 0 then .ok i else .error .immediate := by
  simp only [readNone, ← ofNat_eq_iff (by decide : 0 < 256) hn]
  rfl

/-! ### The three readings of the immediate -/

theorem decode_f2x {w : CommandWord} (hop : opField w = 0x1) (hrsv : rsvField w = 0) :
    decode w = .ok (.f2x (readOffset (immField w))) := by
  simp [decode, hop, hrsv]

theorem decode_x2f {w : CommandWord} (hop : opField w = 0x2) (hrsv : rsvField w = 0) :
    decode w = .ok (.x2f (readOffset (immField w))) := by
  simp [decode, hop, hrsv]

theorem decode_ldc {w : CommandWord} (hop : opField w = 0xA) (hrsv : rsvField w = 0) :
    decode w = readConst (immField w) := by
  simp [decode, hop, hrsv]

/-- The commands without an immediate, with their opcodes. -/
def plainRows : List (Nat × Instr) :=
  [(0x0, .raw), (0x3, .mul), (0x4, .addw), (0x5, .adds), (0x6, .sin), (0x7, .cos), (0x8, .sinf), (0x9, .cosf)]

theorem decode_plainRow {w : CommandWord} {p : Nat × Instr} (hp : p ∈ plainRows) (hop : opField w = BitVec.ofNat 4 p.1)
    (hrsv : rsvField w = 0) : decode w = readNone (immField w) p.2 := by
  simp only [plainRows, List.mem_cons, List.not_mem_nil, or_false] at hp
  obtain rfl | rfl | rfl | rfl | rfl | rfl | rfl | rfl := hp <;> simp [decode, hop, hrsv]

/-! ### Decode and encode -/

theorem decode_encode {i : Instr} (h : i.wellFormed = true) : decode (encode i) = .ok i := by
  obtain ⟨op, rsv, imm⟩ := encode_fields i
  unfold decode
  rw [op, rsv, imm]
  cases i with
  | f2x off | x2f off => simp [opBits, immBits, readOffset_ofInt h]
  | ldc k => cases k <;> rfl
  | raw | mul | addw | adds | sin | cos | sinf | cosf => rfl

/-- A word decodes to a command exactly when it is the word of that command, and the command is well formed. -/
theorem decode_eq_ok_iff {w : CommandWord} {i : Instr} : decode w = .ok i ↔ i.wellFormed = true ∧ w = encode i := by
  refine ⟨fun h => ?_, fun ⟨hwf, hw⟩ => hw ▸ decode_encode hwf⟩
  unfold decode at h
  split at h
  · exact nomatch h
  split at h
  · exact nomatch h
  rename_i hrsv
  have fields := fun hop => eq_encode_of_fields (w := w) (i := i) hop (not_not.mp hrsv)
  split at h
  case h_2 hop | h_3 hop =>
    obtain rfl := Except.ok.inj h
    exact ⟨offsetInRange_readOffset _, fields (BitVec.eq_of_toNat_eq hop) (ofInt_readOffset _).symm⟩
  case h_11 hop =>
    obtain ⟨k, rfl, himm⟩ := readConst_eq_ok h
    exact ⟨rfl, fields (BitVec.eq_of_toNat_eq hop) himm⟩
  case h_12 => exact nomatch h
  all_goals
    rename_i hop
    obtain ⟨himm, rfl⟩ := readNone_eq_ok_iff.mp h
    exact ⟨rfl, fields (BitVec.eq_of_toNat_eq hop) himm⟩

theorem decode_eq_ok_iff_toNat {w : CommandWord} {i : Instr} :
    decode w = .ok i ↔ i.wellFormed = true ∧ w.toNat = (opBits i).toNat * 4096 + (immBits i).toNat := by
  rw [decode_eq_ok_iff, ← BitVec.toNat_inj, encode_toNat]

/-! ### The rows of R63 -/

/-- A word is selected by a row whose mask leaves out the lowest `k` bits when it agrees with `match` above them. -/
theorem and_mask_eq_iff (w m : CommandWord) (k : Nat) (hm : m.toNat % 2 ^ k = 0) :
    w &&& (BitVec.allOnes 16 <<< k) = m ↔ w.toNat / 2 ^ k = m.toNat / 2 ^ k := by
  have hlt : w.toNat / 2 ^ k * 2 ^ k < 2 ^ 16 := (Nat.div_mul_le_self _ _).trans_lt w.isLt
  have hm' := Nat.div_mul_cancel (Nat.dvd_of_mod_eq_zero hm)
  rw [← BitVec.shiftLeft_ushiftRight, ← BitVec.toNat_inj, BitVec.toNat_shiftLeft, BitVec.toNat_ushiftRight,
    Nat.shiftRight_eq_div_pow, Nat.shiftLeft_eq, Nat.mod_eq_of_lt hlt]
  constructor
  · intro h
    rw [← h, Nat.mul_div_cancel _ (by positivity)]
  · intro h
    rw [h, hm']

/-- The row of a command without an immediate: the mask is full. -/
theorem and_fullMask_eq_iff_decode (w : CommandWord) {i : Instr} (h : i.wellFormed = true) :
    w &&& 0xFFFF = encode i ↔ decode w = .ok i := by
  rw [decode_eq_ok_iff, and_iff_right h]
  exact iff_of_eq (congrArg (· = _) (BitVec.and_allOnes (x := w)))

/-- The words of F2X and X2F: every immediate is an offset. -/
theorem exists_decode_offset_iff (w : CommandWord) {c : Int → Instr} {op : Nat}
    (hc : ∀ off, (c off).wellFormed = offsetInRange off) (hop : ∀ off, (opBits (c off)).toNat = op)
    (himm : ∀ off, immBits (c off) = BitVec.ofInt 8 off) :
    (∃ off, decode w = .ok (c off)) ↔ w.toNat / 256 = op * 16 := by
  simp only [decode_eq_ok_iff_toNat, hc, hop, himm]
  constructor
  · rintro ⟨off, -, h⟩
    have := (BitVec.ofInt 8 off).isLt
    omega
  · intro h
    refine ⟨readOffset (immField w), offsetInRange_readOffset _, ?_⟩
    rw [ofInt_readOffset, immField_toNat]
    omega

theorem exists_decode_f2x_iff (w : CommandWord) : (∃ off, decode w = .ok (.f2x off)) ↔ w.toNat / 256 = 0x10 :=
  exists_decode_offset_iff w (op := 1) (c := .f2x) (fun _ => rfl) (fun _ => rfl) (fun _ => rfl)

theorem exists_decode_x2f_iff (w : CommandWord) : (∃ off, decode w = .ok (.x2f off)) ↔ w.toNat / 256 = 0x20 :=
  exists_decode_offset_iff w (op := 2) (c := .x2f) (fun _ => rfl) (fun _ => rfl) (fun _ => rfl)

/-- The words of LDC: the lowest bit selects the constant. -/
theorem exists_decode_ldc_iff (w : CommandWord) : (∃ k, decode w = .ok (.ldc k)) ↔ w.toNat / 2 = 0x5000 := by
  constructor
  · rintro ⟨k, hk⟩
    obtain ⟨-, h⟩ := decode_eq_ok_iff_toNat.mp hk
    cases k with
    | tau | deg360 =>
      simp only [opBits, immBits, BitVec.reduceToNat] at h
      omega
  · intro h
    obtain h | h : w.toNat = 0xA000 ∨ w.toNat = 0xA001 := by omega
    · exact ⟨.tau, decode_eq_ok_iff_toNat.mpr ⟨rfl, h⟩⟩
    · exact ⟨.deg360, decode_eq_ok_iff_toNat.mpr ⟨rfl, h⟩⟩

/-! ### The legal words -/

/-- The legal command words, as numbers: those of F2X and X2F with any immediate, one for each command without an immediate,
two for LDC. -/
def legalWords : Finset Nat :=
  Finset.Ico 0x1000 0x1100 ∪ Finset.Ico 0x2000 0x2100 ∪
    {0x0000, 0x3000, 0x4000, 0x5000, 0x6000, 0x7000, 0x8000, 0x9000, 0xA000, 0xA001}

theorem card_legalWords : legalWords.card = 522 := by
  rw [legalWords, Finset.card_union_of_disjoint, Finset.card_union_of_disjoint, Nat.card_Ico, Nat.card_Ico]
  · rfl
  all_goals
    refine Finset.disjoint_left.mpr fun n h h' => ?_
    simp only [Finset.mem_union, Finset.mem_Ico, Finset.mem_insert, Finset.mem_singleton] at h h'
    omega

theorem mem_legalWords_iff (n : Nat) : n ∈ legalWords ↔ n / 256 = 0x10 ∨ n / 256 = 0x20 ∨ n / 2 = 0x5000 ∨
    (n % 0x1000 = 0 ∧ (n = 0 ∨ (3 ≤ n / 0x1000 ∧ n / 0x1000 ≤ 9))) := by
  simp only [legalWords, Finset.mem_union, Finset.mem_Ico, Finset.mem_insert, Finset.mem_singleton]
  omega

/-- The commands are those of the rows of R63. -/
theorem exists_instr_iff {P : Instr → Prop} : (∃ i, P i) ↔
    (∃ off, P (.f2x off)) ∨ (∃ off, P (.x2f off)) ∨ (∃ k, P (.ldc k)) ∨
    ∃ i ∈ [Instr.raw, .mul, .addw, .adds, .sin, .cos, .sinf, .cosf], P i := by
  constructor
  · rintro ⟨i, hi⟩
    cases i with
    | f2x off => exact .inl ⟨off, hi⟩
    | x2f off => exact .inr (.inl ⟨off, hi⟩)
    | ldc k => exact .inr (.inr (.inl ⟨k, hi⟩))
    | raw | mul | addw | adds | sin | cos | sinf | cosf => exact .inr (.inr (.inr ⟨_, by decide, hi⟩))
  · rintro (⟨off, h⟩ | ⟨off, h⟩ | ⟨k, h⟩ | ⟨i, -, h⟩) <;> exact ⟨_, h⟩

theorem exists_decode_iff_mem_legalWords (w : CommandWord) : (∃ i, decode w = .ok i) ↔ w.toNat ∈ legalWords := by
  rw [exists_instr_iff, exists_decode_f2x_iff, exists_decode_x2f_iff, exists_decode_ldc_iff, mem_legalWords_iff]
  simp only [List.mem_cons, List.not_mem_nil, or_false, decode_eq_ok_iff_toNat, Instr.wellFormed, opBits, immBits,
    exists_eq_or_imp, exists_eq_left, true_and, BitVec.ofNat_eq_ofNat, BitVec.reduceToNat, Nat.reduceMul, Nat.reduceAdd]
  omega

theorem toOption_isSome_iff {ε α : Type} (r : Except ε α) : r.toOption.isSome = true ↔ ∃ a, r = .ok a := by
  cases r <;> simp [Except.toOption]

/-- As many words decode as are listed. -/
theorem countP_decode :
    (List.range 65536).countP (fun n => (decode (BitVec.ofNat 16 n)).toOption.isSome) = legalWords.card := by
  have hfilter :
      (Finset.range 65536).filter (fun n => (decode (BitVec.ofNat 16 n)).toOption.isSome = true) = legalWords := by
    ext n
    rw [Finset.mem_filter, Finset.mem_range, toOption_isSome_iff, exists_decode_iff_mem_legalWords, BitVec.toNat_ofNat]
    constructor
    · rintro ⟨hn, h⟩
      rwa [Nat.mod_eq_of_lt hn] at h
    · intro h
      have hn : n < 65536 := by
        rw [mem_legalWords_iff] at h
        omega
      exact ⟨hn, by rwa [Nat.mod_eq_of_lt hn]⟩
  rw [← hfilter, ← Nat.count_eq_card_filter_range, Nat.count]
  simp

/-! ### The obligations -/

/-- Settles O1: a full mask compares the whole word, the others all bits but those of the row's immediate; the legal words are
counted as the set of their numbers. -/
theorem opcodeRowsSelectTheirCommands : Obligations.OpcodeRowsSelectTheirCommands := by
  refine ⟨fun w => ?_, countP_decode.trans card_legalWords⟩
  have row {i : Instr} (h : i.wellFormed = true) := and_fullMask_eq_iff_decode w h
  refine ⟨row (i := .raw) rfl, ?_, ?_, row (i := .mul) rfl, row (i := .addw) rfl, row (i := .adds) rfl,
    row (i := .sin) rfl, row (i := .cos) rfl, row (i := .sinf) rfl, row (i := .cosf) rfl, ?_⟩
  · exact (and_mask_eq_iff w 0x1000 8 rfl).trans (exists_decode_f2x_iff w).symm
  · exact (and_mask_eq_iff w 0x2000 8 rfl).trans (exists_decode_x2f_iff w).symm
  · exact (and_mask_eq_iff w 0xA000 1 rfl).trans (exists_decode_ldc_iff w).symm

/-- Settles O2: the fields of the word say which reading applies, and each reading is known for every number. -/
theorem immediateIsReadByItsOpcode : Obligations.ImmediateIsReadByItsOpcode := by
  intro n hn
  refine ⟨?_, ?_, ?_, fun p hp => ?_⟩
  · obtain ⟨hop, hrsv, himm⟩ := fields_ofNat 1 hn
    rw [← readOffset_ofNat hn, ← himm]
    exact decode_f2x hop hrsv
  · obtain ⟨hop, hrsv, himm⟩ := fields_ofNat 2 hn
    rw [← readOffset_ofNat hn, ← himm]
    exact decode_x2f hop hrsv
  · obtain ⟨hop, hrsv, himm⟩ := fields_ofNat 10 hn
    rw [← readConst_ofNat hn, ← himm]
    exact decode_ldc hop hrsv
  · obtain ⟨hop, hrsv, himm⟩ := fields_ofNat p.1 hn
    rw [← readNone_ofNat hn, ← himm]
    exact decode_plainRow hp hop hrsv

/-- Settles O4: the reserved words are those not among the legal ones, and a turn answers an undecodable word ILL. -/
theorem reservedWordsAnswerIll : Obligations.ReservedWordsAnswerIll := by
  intro s q op rsv imm reserved
  have hreserved : reserved ↔ ∀ i, decode q.cmd ≠ .ok i := by
    rw [← not_exists, exists_decode_iff_mem_legalWords, mem_legalWords_iff]
    have := q.cmd.isLt
    omega
  refine ⟨hreserved, fun h => ?_, rfl, rfl, rfl, rfl⟩
  rw [Machine.step_withOldest, Machine.respond_of_undecodable s.config (hreserved.mp h)]

end Sys2Proof
end

section
/-! The converters as the rules' arithmetic (41_fixed_convert.md R91, R92): the datapath of F2X and X2F computes the
pseudocode on every pattern and offset. -/

namespace Sys2Proof.Machine

/-! ### Leading zeros -/

/-- The leading zeros of the lowest `k` bits, which hold a top 1 bit (40_primitives.md R83). -/
theorem leadingZeros_eq {v : Word} (hv : v ≠ 0) {k : Nat} (hk : Nat.log2 v.toNat < k) :
    leadingZeros v k = k - 1 - Nat.log2 v.toNat := by
  have hne : v.toNat ≠ 0 := fun h => hv (BitVec.eq_of_toNat_eq h)
  induction k with
  | zero => omega
  | succ k ih =>
    by_cases htop : Nat.log2 v.toNat = k
    · have hbit : v.getLsbD k = true := by rw [← htop, BitVec.getLsbD, Nat.testBit_log2 hne]
      rw [leadingZeros, if_pos hbit]
      omega
    · have hbit : ¬ v.getLsbD k = true := by
        have hlt : v.toNat < 2 ^ k := (Nat.log2_lt hne).mp (by omega)
        rw [BitVec.getLsbD, Nat.testBit_lt_two_pow hlt]
        exact Bool.false_ne_true
      rw [leadingZeros, if_neg hbit, ih (by omega)]
      omega

theorem clz64_eq {v : Word} (hv : v ≠ 0) : clz64 v = 63 - Nat.log2 v.toNat := by
  have hne : v.toNat ≠ 0 := fun h => hv (BitVec.eq_of_toNat_eq h)
  exact leadingZeros_eq hv ((Nat.log2_lt hne).mpr v.isLt)

/-! ### X2F -/

theorem x2f_toNat (off : Int) (a : Word) : (x2f off a).toNat = refX2f off a.toNat := by
  by_cases ha : a = 0
  · simp [x2f, refX2f, ha]
  · have hne : a.toNat ≠ 0 := fun h => ha (BitVec.eq_of_toNat_eq h)
    rw [x2f, if_neg ha, packFloat_toNat, BitVec.toNat_ofInt, BitVec.extractLsb'_toNat, Nat.shiftRight_eq_div_pow,
      shl64_toNat, clz64_eq ha, refX2f, if_neg hne]
    simp

/-- X2F computes its pseudocode (41_fixed_convert.md R92). -/
theorem x2f_eq_refX2f (off : Int) (a : Word) : x2f off a = BitVec.ofNat 64 (refX2f off a.toNat) := by
  rw [← x2f_toNat, BitVec.ofNat_toNat, BitVec.setWidth_eq]

/-! ### F2X -/

theorem expField_eq_zero_iff (f : Word) : expField f = 0 ↔ f.toNat / 2 ^ 52 % 2 ^ 11 = 0 := by
  rw [← expField_toNat, ← BitVec.toNat_inj]
  rfl

theorem expField_eq_top_iff (f : Word) : expField f = 2047 ↔ f.toNat / 2 ^ 52 % 2 ^ 11 = 2047 := by
  rw [← expField_toNat, ← BitVec.toNat_inj]
  rfl

theorem fracField_eq_zero_iff (f : Word) : fracField f = 0 ↔ f.toNat % 2 ^ 52 = 0 := by
  rw [← fracField_toNat, ← BitVec.toNat_inj]
  rfl

theorem shiftBy_toNat (m : Word) (sh : Int) :
    (shiftBy m sh).toNat = if 0 ≤ sh then m.toNat * 2 ^ sh.toNat % 2 ^ 64 else m.toNat / 2 ^ (-sh).toNat := by
  by_cases h : 0 ≤ sh
  · rw [shiftBy, if_pos h, if_pos h, shl64_toNat]
  · rw [shiftBy, if_neg h, if_neg h, shr64_toNat]

/-- The word F2X gives a normal float (41_fixed_convert.md R91). -/
def f2xNormal (off : Int) (f : Word) : Word := if signBit f then neg64 (f2xMagnitude off f) else f2xMagnitude off f

theorem refF2x_of_normal (off : Int) (f : Word) (h0 : f.toNat / 2 ^ 52 % 2 ^ 11 ≠ 0)
    (h1 : f.toNat / 2 ^ 52 % 2 ^ 11 ≠ 2047) :
    refF2x off f.toNat = some (f2xNormal off f).toNat := by
  have hmag : (f2xMagnitude off f).toNat = _ := shiftBy_toNat (significand f) (f2xShift off f)
  rw [significand_toNat, f2xShift, expField_toNat] at hmag
  have hsign : signBit f = true ↔ f.toNat / 2 ^ 63 ≠ 0 := by
    rw [signBit_eq, decide_eq_true_iff]
    omega
  unfold refF2x
  dsimp only
  rw [if_neg (by tauto), if_neg (by tauto), ← hmag]
  by_cases hs : signBit f = true
  · rw [if_neg (hsign.mp hs), f2xNormal, if_pos hs, neg64_toNat]
  · rw [if_pos (not_not.mp (mt hsign.mpr hs)), f2xNormal, if_neg hs]

/-- F2X computes its pseudocode on every pattern (41_fixed_convert.md R91); none is UNREP. -/
theorem f2x_eq_refF2x (off : Int) (f : Word) :
    f2x off f = (refF2x off f.toNat).elim .unrep fun y => plain (BitVec.ofNat 64 y) := by
  by_cases h0 : f.toNat / 2 ^ 52 % 2 ^ 11 = 0
  · have he := (expField_eq_zero_iff f).mpr h0
    by_cases ht : f.toNat % 2 ^ 52 = 0
    · have hc : floatClass f = .zero := by
        rw [floatClass, if_pos he, if_pos ((fracField_eq_zero_iff f).mpr ht)]
      have hr : refF2x off f.toNat = some 0 := if_pos ⟨h0, ht⟩
      rw [f2x, hc, hr]
      rfl
    · have hc : floatClass f = .subnormal := by
        rw [floatClass, if_pos he, if_neg (mt (fracField_eq_zero_iff f).mp ht)]
      have hr : refF2x off f.toNat = none := (if_neg (by tauto)).trans (if_pos (.inl h0))
      rw [f2x, hc, hr]
      rfl
  · have he := mt (expField_eq_zero_iff f).mp h0
    by_cases h1 : f.toNat / 2 ^ 52 % 2 ^ 11 = 2047
    · have hr : refF2x off f.toNat = none := (if_neg (by tauto)).trans (if_pos (.inr h1))
      have hu : f2x off f = .unrep := by
        rw [f2x_eq_unrep_iff, floatClass, if_neg he, if_pos ((expField_eq_top_iff f).mpr h1)]
        by_cases ht : fracField f = 0
        · exact .inr (.inl (if_pos ht))
        · exact .inl (if_neg ht)
      rw [hu, hr]
      rfl
    · have hc : floatClass f = .normal := by
        rw [floatClass, if_neg he, if_neg (mt (expField_eq_top_iff f).mp h1)]
      rw [refF2x_of_normal off f h0 h1, f2x, hc, Option.elim_some, BitVec.ofNat_toNat, BitVec.setWidth_eq]
      rfl

end Sys2Proof.Machine
end

section
/-! The pseudo-commands (30_encoding.md R72): a line on a quiet block changes the temporaries it names by its command's
response, and the expansions chain such lines. -/

namespace Sys2Proof.Machine

/-! ### Temporaries -/

@[simp] theorem lookup_assigned (k : Nat) (v : Word) (temps : Temps) : List.lookup k ((k, v) :: temps) = some v :=
  List.lookup_cons_self

theorem lookup_cons_of_ne {m n : Nat} (h : m ≠ n) (u : Word) (temps : Temps) :
    List.lookup m ((n, u) :: temps) = List.lookup m temps := by
  rw [List.lookup_cons, beq_false_of_ne h]

/-- An operand keeps its value when another temporary is assigned. -/
theorem Source.word_assigned_of_ne {x : Source} {n : Nat} (h : x ≠ .temp n) (u : Word) (temps : Temps) :
    x.word ((n, u) :: temps) = x.word temps := by
  cases x with
  | omitted | literal => rfl
  | temp m => exact lookup_cons_of_ne (fun hmn => h (congrArg _ hmn)) u temps

/-! ### Lines and programs -/

theorem assemble_eq {l : Line} {temps : Temps} {a b : Word} (hwf : l.instr.wellFormed = true)
    (ha : l.srcA.word temps = some a) (hb : l.srcB.word temps = some b) :
    assemble temps l = some { cmd := encode l.instr, a := a, b := b } := by
  simp only [assemble, hwf, ha, hb]

theorem respond_encode {i : Instr} (hwf : i.wellFormed = true) (c : Config) (a b : Word) :
    respond c { cmd := encode i, a := a, b := b } = responseOf i c { cmd := encode i, a := a, b := b } :=
  respond_of_decode (decode_encode hwf)

/-- The temporaries after a line that is answered by `r` (30_encoding.md R71). -/
def Line.receive (l : Line) (temps : Temps) (r : Response) : Temps :=
  assign (assign temps l.dst r.y) l.flags (r.fl.setWidth 64)

/-- A line of a well-formed command on a quiet block: its temporaries receive the command's own response. -/
theorem runLine_eq {l : Line} {temps : Temps} {s : State} {a b : Word} (hs : s.Quiet) (hwf : l.instr.wellFormed = true)
    (ha : l.srcA.word temps = some a) (hb : l.srcB.word temps = some b) :
    runLine l temps s =
      some (l.receive temps (responseOf l.instr s.config { cmd := encode l.instr, a := a, b := b }), s) := by
  rw [runLine_of_quiet hs (assemble_eq hwf ha hb), respond_encode hwf]
  rfl

/-- A program whose first line is such a line goes on with the rest of it. -/
theorem runLines_cons {l : Line} {temps : Temps} {s : State} {a b : Word} (ls : List Line) (hs : s.Quiet)
    (hwf : l.instr.wellFormed = true) (ha : l.srcA.word temps = some a) (hb : l.srcB.word temps = some b) :
    runLines (l :: ls) temps s =
      runLines ls (l.receive temps (responseOf l.instr s.config { cmd := encode l.instr, a := a, b := b })) s := by
  rw [runLines, runLine_eq hs hwf ha hb]

/-! ### The expansions -/

section
variable {s : State} {temps : Temps} {x : Source} {v : Word}

/-- An operand converted at offset `off`. -/
theorem runLines_x2f (hs : s.Quiet) {off : Int} (hoff : offsetInRange off = true) (y : Nat) (hx : x.word temps = some v) :
    runLines [{ dst := some y, flags := none, instr := .x2f off, srcA := x, srcB := .omitted }] temps s =
      some ((y, BitVec.ofNat 64 (refX2f off v.toNat)) :: temps, s) := by
  rw [← x2f_eq_refX2f]
  exact runLines_cons [] hs hoff hx rfl

/-- The shape ASRAD and ASDEG share: the operand times a constant, converted at offset `off`. -/
def inUnits (k : ConstName) (off : Int) (y t1 t2 : Nat) (x : Source) : List Line :=
  [{ dst := some t1, flags := none, instr := .ldc k, srcA := .omitted, srcB := .omitted },
   { dst := some t2, flags := none, instr := .mul, srcA := .temp t1, srcB := x },
   { dst := some y, flags := none, instr := .x2f off, srcA := .temp t2, srcB := .omitted }]

theorem asRad_eq_inUnits (y t1 t2 : Nat) (x : Source) : asRad y t1 t2 x = inUnits .tau 3 y t1 t2 x := rfl
theorem asDeg_eq_inUnits (y t1 t2 : Nat) (x : Source) : asDeg y t1 t2 x = inUnits .deg360 9 y t1 t2 x := rfl

theorem runLines_inUnits (hs : s.Quiet) (k : ConstName) {off : Int} (hoff : offsetInRange off = true) (y t1 t2 : Nat)
    (hx : x.word temps = some v) (hne : x ≠ .temp t1) :
    ∃ e, runLines (inUnits k off y t1 t2 x) temps s = some (e, s) ∧
      e.lookup y = some (BitVec.ofNat 64 (refX2f off ((constAt s.config k).toNat * v.toNat / 2 ^ 64))) := by
  have hx' := (Source.word_assigned_of_ne hne (constAt s.config k) temps).trans hx
  refine ⟨(y, _) :: (t2, mulhi (constAt s.config k) v) :: (t1, constAt s.config k) :: temps, ?_, lookup_assigned _ _ _⟩
  calc runLines (inUnits k off y t1 t2 x) temps s
      = runLines (inUnits k off y t1 t2 x).tail ((t1, constAt s.config k) :: temps) s :=
        runLines_cons _ hs rfl rfl rfl
    _ = runLines (inUnits k off y t1 t2 x).tail.tail
          ((t2, mulhi (constAt s.config k) v) :: (t1, constAt s.config k) :: temps) s :=
        runLines_cons _ hs rfl (lookup_assigned _ _ _) hx'
    _ = _ := by
        rw [← mulhi_toNat]
        exact runLines_x2f hs hoff y (lookup_assigned _ _ _)

@[simp] theorem plain_fl (y : Word) : (plain y).fl = 0 :=
  show BitVec.ofBool false ++ BitVec.ofBool false ++ Status.ok.code = 0 by decide

/-- The response of F2X on the port: status 0 with the word, or 1 with 0 (60_exceptions.md R140, R141). -/
theorem f2x_port (off : Int) (f : Word) :
    (f2x off f).y = BitVec.ofNat 64 ((refF2x off f.toNat).getD 0) ∧
    (f2x off f).fl.setWidth 64 = if (refF2x off f.toNat).isSome then (0 : Word) else 1 := by
  rw [f2x_eq_refF2x]
  cases refF2x off f.toNat with
  | none => exact ⟨rfl, rfl⟩
  | some y => exact ⟨rfl, congrArg (BitVec.setWidth 64) (plain_fl _)⟩

theorem runLines_fromRot (hs : s.Quiet) {y fl : Nat} (hne : y ≠ fl) (hx : x.word temps = some v) :
    ∃ e, runLines (fromRot y fl x) temps s = some (e, s) ∧
      e.lookup y = some (BitVec.ofNat 64 ((refF2x 0 v.toNat).getD 0)) ∧
      e.lookup fl = some (if (refF2x 0 v.toNat).isSome then 0 else 1) := by
  obtain ⟨hy, hfl⟩ := f2x_port 0 v
  refine ⟨(fl, (f2x 0 v).fl.setWidth 64) :: (y, (f2x 0 v).y) :: temps, runLines_cons [] hs rfl hx rfl, ?_, ?_⟩
  · rw [lookup_cons_of_ne hne, lookup_assigned, hy]
  · rw [lookup_assigned, hfl]

theorem runLines_nop (hs : s.Quiet) (temps : Temps) : runLines nop temps s = some (temps, s) :=
  runLines_cons [] hs rfl rfl rfl

end

/-! ### The obligation -/

/-- Settles O51: each expansion is run line by line, and the converters compute their pseudocode. -/
theorem pseudoCommandsComputeTheirFunctions : Obligations.PseudoCommandsComputeTheirFunctions := by
  intro s temps y fl t1 t2 x v hs hx
  refine ⟨⟨_, runLines_x2f hs (by decide) y hx, lookup_assigned _ _ _⟩, fun hne => ?_, fun hne => ?_,
    fun hne => runLines_fromRot hs hne hx, runLines_nop hs temps⟩
  · rw [asRad_eq_inUnits]
    exact runLines_inUnits hs .tau (by decide) y t1 t2 hx hne
  · rw [asDeg_eq_inUnits]
    exact runLines_inUnits hs .deg360 (by decide) y t1 t2 hx hne

end Sys2Proof.Machine
end

section
/-! The leading-zero count from the top 1 bit (40_primitives.md R83). -/

namespace Sys2Proof.Machine

/-- The position of the top 1 bit is the binary logarithm. -/
theorem log2_eq_of_topBit {v : Word} {p : Nat} (hp : v.getLsbD p = true) (hz : ∀ j, p < j → v.getLsbD j = false) :
    Nat.log2 v.toNat = p := by
  have hge : 2 ^ p ≤ v.toNat := Nat.ge_two_pow_of_testBit hp
  have hlt : v.toNat < 2 ^ (p + 1) := Nat.lt_pow_two_of_testBit _ fun j hj => hz j hj
  have hne : v.toNat ≠ 0 := ((Nat.two_pow_pos p).trans_le hge).ne'
  exact (Nat.log2_eq_iff hne).mpr ⟨hge, hlt⟩

theorem clz64_zero : clz64 0 = 64 := by decide

theorem clz64_eq_of_topBit {v : Word} {p : Nat} (hp : v.getLsbD p = true) (hz : ∀ j, p < j → v.getLsbD j = false) :
    clz64 v = 63 - p := by
  have hv : v ≠ 0 := by
    rintro rfl
    simp at hp
  rw [clz64_eq hv, log2_eq_of_topBit hp hz]

/-! ### The obligation -/

/-- Settles O26: the count of a nonzero word is 63 less its logarithm, which is the position of its top 1 bit. -/
theorem clzCountsFromTheTopBit : Obligations.ClzCountsFromTheTopBit := by
  refine fun v => ⟨?_, fun p hp hz => ?_⟩
  · rintro rfl
    exact clz64_zero
  · have h := clz64_eq_of_topBit hp hz
    exact ⟨h, h.trans_le (Nat.sub_le 63 p)⟩

end Sys2Proof.Machine
end

section
/-! The converters answer what their rules print (41_fixed_convert.md R90, R91, R92): the words of F2X and X2F with their
signed offset, and the response each command gives the oldest request. -/

namespace Sys2Proof

/-! ### The words of F2X and X2F -/

/-- An immediate put into the lowest 8 bits of a word that leaves them 0 is added to it (30_encoding.md R60). -/
theorem or_imm_toNat {m : CommandWord} (hm : 2 ^ 8 ∣ m.toNat) (imm : BitVec 8) :
    (m ||| imm.setWidth 16).toNat = m.toNat + imm.toNat := by
  obtain ⟨b, hb⟩ := hm
  have himm := imm.isLt
  rw [BitVec.toNat_or, BitVec.toNat_setWidth, Nat.mod_eq_of_lt (by omega), hb, Nat.two_pow_add_eq_or_of_lt himm]

/-- The word made of a command's opcode and its immediate decodes to the command. -/
theorem decode_or_imm {m : CommandWord} (op : BitVec 4) {imm : BitVec 8} {i : Instr} (hm : m.toNat = op.toNat * 4096)
    (hwf : i.wellFormed = true) (hop : opBits i = op) (himm : immBits i = imm) :
    decode (m ||| imm.setWidth 16) = .ok i := by
  have hlow : 2 ^ 8 ∣ m.toNat := by omega
  rw [decode_eq_ok_iff_toNat, or_imm_toNat hlow, hm, hop, himm]
  exact ⟨hwf, rfl⟩

theorem decode_f2x_or_imm (imm : BitVec 8) : decode (0x1000 ||| imm.setWidth 16) = .ok (.f2x imm.toInt) :=
  decode_or_imm 0x1 (by decide) (offsetInRange_readOffset imm) rfl (ofInt_readOffset imm)

theorem decode_x2f_or_imm (imm : BitVec 8) : decode (0x2000 ||| imm.setWidth 16) = .ok (.x2f imm.toInt) :=
  decode_or_imm 0x2 (by decide) (offsetInRange_readOffset imm) rfl (ofInt_readOffset imm)

namespace Machine

/-! ### The obligations -/

/-- Settles O12: the words carry the offset as their immediate, and the datapath of F2X computes its pseudocode. -/
theorem f2xFollowsItsPseudocode : Obligations.F2xFollowsItsPseudocode := by
  refine ⟨decode_f2x_or_imm, fun off s q => ?_⟩
  have hanswer : responseOf (.f2x off) s.config q = _ := f2x_eq_refF2x off q.a
  rw [exec_withOldest, hanswer]
  cases refF2x off q.a.toNat with
  | none => rfl
  | some y => rfl

/-- Settles O17: the words carry the offset as their immediate, and the datapath of X2F computes its pseudocode. -/
theorem x2fFollowsItsPseudocode : Obligations.X2fFollowsItsPseudocode := by
  refine ⟨decode_x2f_or_imm, fun off s q => ?_⟩
  rw [exec_withOldest, ← x2f_eq_refX2f]
  rfl

/-- Settles O11: the word 0 is the word of RAW, and RAW's response is its operand. -/
theorem rawReturnsItsOperand : Obligations.RawReturnsItsOperand :=
  ⟨decode_encode (i := .raw) rfl, exec_withOldest .raw⟩

end Machine

end Sys2Proof
end

section
/-! The fixed-point commands answer what their rules print (42_fixed_arith.md R100, R101, R102): their datapaths as words of
numbers, and the response each command gives the oldest request. -/

namespace Sys2Proof.Machine

/-! ### The datapaths as words of numbers -/

theorem mulhi_eq_ofNat (a b : Word) : mulhi a b = BitVec.ofNat 64 (a.toNat * b.toNat / 2 ^ 64) := by
  rw [← mulhi_toNat, BitVec.ofNat_toNat, BitVec.setWidth_eq]

theorem wrapAdd_eq_ofNat (a b : Word) : wrapAdd a b = BitVec.ofNat 64 ((a.toNat + b.toNat) % 2 ^ 64) := by
  rw [← wrapAdd_toNat, BitVec.ofNat_toNat, BitVec.setWidth_eq]

/-- The clamp of R102 starts where the sum no longer fits in 64 bits. -/
theorem satAdd_eq_ite (a b : Word) :
    satAdd a b = if a.toNat + b.toNat < 2 ^ 64 then BitVec.ofNat 64 (a.toNat + b.toNat) else 0xFFFFFFFFFFFFFFFF := by
  apply BitVec.eq_of_toNat_eq
  rw [satAdd_toNat]
  split
  case isTrue hfits =>
    rw [BitVec.toNat_ofNat, Nat.mod_eq_of_lt hfits]
    exact min_eq_left (Nat.le_sub_one_of_lt hfits)
  case isFalse hover =>
    exact min_eq_right ((Nat.sub_le _ 1).trans (not_lt.mp hover))

/-! ### The obligations -/

/-- Settles O21: the word 0x3000 is the word of MUL, and MUL's response is the upper half of the product. -/
theorem mulKeepsTheUpperHalf : Obligations.MulKeepsTheUpperHalf := by
  refine ⟨decode_encode (i := .mul) rfl, fun s q => ?_⟩
  rw [exec_withOldest, ← mulhi_eq_ofNat]
  rfl

/-- Settles O22: the word 0x4000 is the word of ADDW, and ADDW's response is the sum without its carry. -/
theorem addwWraps : Obligations.AddwWraps := by
  refine ⟨decode_encode (i := .addw) rfl, fun s q => ?_⟩
  rw [exec_withOldest, ← wrapAdd_eq_ofNat]
  rfl

/-- Settles O23: the word 0x5000 is the word of ADDS, and ADDS's response is the clamped sum. -/
theorem addsClamps : Obligations.AddsClamps := by
  refine ⟨decode_encode (i := .adds) rfl, fun s q => ?_⟩
  rw [exec_withOldest, ← satAdd_eq_ite]
  rfl

end Sys2Proof.Machine
end

section
/-! LDC answers the constant its word selects (43_constants.md R110): its two words, and the reserved ones of its opcode. -/

namespace Sys2Proof

/-- An LDC word of selector 2 or above is reserved for its immediate (30_encoding.md R61). -/
theorem decode_ldc_reserved {n : Nat} (hlo : 2 ≤ n) (hhi : n < 256) :
    decode (BitVec.ofNat 16 (0xA000 + n)) = .error .immediate := by
  obtain ⟨hop, hrsv, himm⟩ := fields_ofNat 0xA hhi
  rw [decode_ldc hop hrsv, himm, readConst_ofNat hhi, if_neg (by omega), if_neg (by omega)]

namespace Machine

/-! ### The obligation -/

/-- Settles O24: 0xA000 and 0xA001 are the words of LDC, whose response reads no operand; the other words of its opcode that
keep `rsv` at 0 are reserved, so the turn answers ILL. -/
theorem ldcReadsTheConstants : Obligations.LdcReadsTheConstants := by
  refine ⟨decode_encode (i := .ldc .tau) rfl, decode_encode (i := .ldc .deg360) rfl,
    fun s q => ⟨exec_withOldest (.ldc .tau) s q, exec_withOldest (.ldc .deg360) s q⟩, fun n s q hlo hhi hcmd => ?_⟩
  have hreserved : decode q.cmd = .error .immediate := by rw [hcmd, decode_ldc_reserved hlo hhi]
  rw [step_withOldest, respond_of_reserved hreserved]

end Machine

end Sys2Proof
end

section
/-! The sine evaluator as the rules' arithmetic (44_trig.md R115 to R120, R125), and the responses of SIN, COS, SINF and COSF
in its numbers (R121 to R124). -/

namespace Sys2Proof.Machine

/-! ### Steps 1 to 4: the sign, the reflection and the magnitude -/

theorem signBit_eq_div (x : Word) : signBit x = decide (x.toNat / 2 ^ 63 = 1) := by
  have hx := x.isLt
  rw [signBit_eq, decide_eq_decide]
  omega

/-- An angle below half a turn, other than the sentinel's, is reflected into the open first quadrant (44_trig.md R117). -/
theorem reflect_lt_quarterTurn {r : Word} (hlt : r.toNat < 2 ^ 63) (hne : r.toNat ≠ 2 ^ 62) :
    (reflect r).toNat < 2 ^ 62 := by
  rw [reflect_toNat hlt]
  split <;> omega

/-- Steps 3 and 4 on numbers; below a quarter turn the coarse index is all that stands above epsilon (44_trig.md R118). -/
theorem quarterSine_toNat (c : Config) {q : Word} (hq : q.toNat < 2 ^ 62) :
    (quarterSine c q).toNat = refCorrect c (q.toNat / 2 ^ 54) (q.toNat % 2 ^ 54 * 8 * c.tauBits.toNat / 2 ^ 64) := by
  have hidx : q.toNat / 2 ^ 54 < 2 ^ 8 := by omega
  rw [quarterSine, correct_toNat, coarseIndex_toNat, radians_toNat, epsilon_toNat, Nat.mod_eq_of_lt hidx]

/-- The evaluator computes its pseudocode on every angle word, for every table and τ literal. -/
theorem refSine_eq_sincore (c : Config) (x : Word) :
    refSine c x.toNat = ((sincore c x).neg, (sincore c x).one, (sincore c x).mag.toNat) := by
  by_cases h : belowHalf x = quarterTurn
  · have hr := (belowHalf_eq_quarterTurn_iff x).mp h
    rw [refSine, if_pos hr, sincore, if_pos h, signBit_eq_div]
    rfl
  · have hr := mt (belowHalf_eq_quarterTurn_iff x).mpr h
    have hlt : (belowHalf x).toNat < 2 ^ 63 := by
      rw [belowHalf_toNat]
      exact Nat.mod_lt _ (by decide)
    have hq : (reflect (belowHalf x)).toNat < 2 ^ 62 := reflect_lt_quarterTurn hlt (by rwa [belowHalf_toNat])
    rw [refSine, if_neg hr, sincore, if_neg h, signBit_eq_div, quarterSine_toNat c hq, reflect_toNat hlt, belowHalf_toNat]

/-! ### Step 5: the result as a float -/

theorem sm2f_toNat (r : Sine) : (sm2f r).toNat = refSm2f (r.neg, r.one, r.mag.toNat) := by
  rw [sm2f, withSign_toNat, refSm2f, apply_ite BitVec.toNat, x2f_toNat]
  cases r.neg <;> simp

/-- A magnitude is below 1, and so is its float: the exponent at offset 0 is at most 1022 (41_fixed_convert.md R92). -/
theorem x2f_zero_lt_one (a : Word) : (x2f 0 a).toNat < 0x3FF0000000000000 := by
  rw [x2f_toNat, refX2f]
  split
  case isTrue => decide
  case isFalse =>
    dsimp only
    omega

/-- Without its sign the float of a sine is at most that of 1.0 (44_trig.md R123). -/
theorem sm2f_toNat_mod_le_one (r : Sine) : (sm2f r).toNat % 2 ^ 63 ≤ 0x3FF0000000000000 := by
  have hx := x2f_zero_lt_one r.mag
  rw [sm2f, withSign_toNat, Nat.mul_add_mod_self_right, Nat.mod_mod]
  refine (Nat.mod_le _ _).trans ?_
  split
  case isTrue => exact le_refl _
  case isFalse => exact hx.le

/-! ### The responses -/

/-- SIN's response in the numbers of the pseudocode (44_trig.md R121). -/
theorem responseOf_sin (c : Config) (q : Request) :
    responseOf .sin c q = .ok (BitVec.ofNat 64 (refSine c q.a.toNat).2.2) (refSine c q.a.toNat).1
      (refSine c q.a.toNat).2.1 := by
  rw [refSine_eq_sincore, BitVec.ofNat_toNat, BitVec.setWidth_eq]
  rfl

/-- SINF's response in the numbers of the pseudocode (44_trig.md R123). -/
theorem responseOf_sinf (c : Config) (q : Request) :
    responseOf .sinf c q = .ok (BitVec.ofNat 64 (refSm2f (refSine c q.a.toNat))) (refSine c q.a.toNat).1
      (refSine c q.a.toNat).2.1 := by
  rw [refSine_eq_sincore, ← sm2f_toNat, BitVec.ofNat_toNat, BitVec.setWidth_eq]
  rfl

/-- The request with its angle a quarter turn further, modulo one rotation (44_trig.md R122). -/
def Request.quarterFurther (q : Request) : Request := { q with a := q.a + 0x4000000000000000 }

theorem Request.quarterFurther_toNat (q : Request) : q.quarterFurther.a.toNat = (q.a.toNat + 2 ^ 62) % 2 ^ 64 :=
  BitVec.toNat_add _ _

theorem responseOf_cos_eq_sin (c : Config) (q : Request) : responseOf .cos c q = responseOf .sin c q.quarterFurther :=
  congrArg (fun x => magnitudeResponse (sincore c x)) (wrapAdd_eq_add q.a quarterTurn)

theorem responseOf_cosf_eq_sinf (c : Config) (q : Request) : responseOf .cosf c q = responseOf .sinf c q.quarterFurther :=
  congrArg (fun x => floatResponse (sincore c x)) (wrapAdd_eq_add q.a quarterTurn)

/-- Two commands that have one response to two requests answer them alike. -/
theorem exec_same_response {i j : Instr} {q p : Request} (s : State)
    (h : responseOf i s.config q = responseOf j s.config p) :
    ∃ r, exec i (s.withOldest q) = .next (s.withResponse r) ∧ exec j (s.withOldest p) = .next (s.withResponse r) :=
  ⟨_, exec_withOldest i s q, h ▸ exec_withOldest j s p⟩

/-! ### The obligations -/

/-- Settles O27: the word 0x6000 is the word of SIN, and SIN's response is the evaluator's result. -/
theorem sinFollowsTheFiveSteps : Obligations.SinFollowsTheFiveSteps := by
  refine ⟨decode_encode (i := .sin) rfl, fun s q => ?_⟩
  rw [exec_withOldest, responseOf_sin]

/-- Settles O28: COS has the response of SIN at the advanced angle. -/
theorem cosIsSinAQuarterTurnFurther : Obligations.CosIsSinAQuarterTurnFurther := by
  refine ⟨decode_encode (i := .cos) rfl, fun s q => ⟨?_, exec_same_response s (responseOf_cos_eq_sin s.config q)⟩⟩
  rw [exec_withOldest, responseOf_cos_eq_sin, responseOf_sin, Request.quarterFurther_toNat]

/-- Settles O29: the word 0x8000 is the word of SINF, which reassembles the evaluator's result; a magnitude below 1 has an
exponent below that of 1.0. -/
theorem sinfReassemblesTheSineAsAFloat : Obligations.SinfReassemblesTheSineAsAFloat := by
  refine ⟨decode_encode (i := .sinf) rfl, fun s q => ⟨sm2f (sincore s.config q.a), ?_, ?_, sm2f_toNat_mod_le_one _⟩⟩
  · rw [exec_withOldest, refSine_eq_sincore]
    rfl
  · rw [sm2f_toNat, refSine_eq_sincore]

/-- Settles O30: COSF has the response of SINF at the advanced angle. -/
theorem cosfIsSinfAQuarterTurnFurther : Obligations.CosfIsSinfAQuarterTurnFurther := by
  refine ⟨decode_encode (i := .cosf) rfl, fun s q => ⟨?_, exec_same_response s (responseOf_cosf_eq_sinf s.config q)⟩⟩
  rw [exec_withOldest, responseOf_cosf_eq_sinf, responseOf_sinf, Request.quarterFurther_toNat]

end Sys2Proof.Machine
end

section
/-! Which status a response carries, and why (60_exceptions.md R142, R143, R144): UNREP from the operand of F2X alone, ILL from
the word alone. -/

namespace Sys2Proof.Machine

/-! ### The answer of a command and of a turn -/

theorem next_withResponse_inj {s : State} {r r' : Response} :
    (.next (s.withResponse r) : Host.Outcome State Fault Refusal) = .next (s.withResponse r') ↔ r = r' :=
  ⟨fun h => State.withResponse_inj (Host.Outcome.next.inj h), fun h => by rw [h]⟩

theorem exec_answers_iff (i : Instr) (s : State) (q : Request) (r : Response) :
    exec i (s.withOldest q) = .next (s.withResponse r) ↔ responseOf i s.config q = r := by
  rw [exec_withOldest, next_withResponse_inj]

theorem step_answers_iff (s : State) (q : Request) (r : Response) :
    step (s.withOldest q) = .next (s.withResponse r) ↔ respond s.config q = r := by
  rw [step_withOldest, next_withResponse_inj]

/-! ### ILL and UNREP of the pure function -/

/-- No command answers ILL, so only the decoder brings it about. -/
theorem respond_eq_ill_iff (c : Config) (q : Request) : respond c q = .ill ↔ ∀ i, decode q.cmd ≠ .ok i := by
  refine ⟨fun hill i hd => ?_, respond_of_undecodable c⟩
  rw [respond_of_decode hd] at hill
  exact responseOf_ne_ill i c q hill

theorem decode_of_respond_eq_unrep {c : Config} {q : Request} (h : respond c q = .unrep) :
    ∃ off, decode q.cmd = .ok (.f2x off) := by
  cases hd : decode q.cmd with
  | ok i =>
    rw [respond_of_decode hd, responseOf_eq_unrep_iff] at h
    obtain ⟨⟨off, rfl⟩, -⟩ := h
    exact ⟨off, rfl⟩
  | error e =>
    rw [respond_of_reserved hd] at h
    exact nomatch h

/-! ### The patterns F2X cannot represent, as numbers -/

theorem floatClass_eq_subnormal_iff (f : Word) :
    floatClass f = .subnormal ↔ 1 ≤ f.toNat % 2 ^ 63 ∧ f.toNat % 2 ^ 63 ≤ 0x000FFFFFFFFFFFFF := by
  have hfields : floatClass f = .subnormal ↔ expField f = 0 ∧ fracField f ≠ 0 := by
    unfold floatClass
    split_ifs with hexp hfrac htop hfrac <;> simp_all
  rw [hfields, expField_eq_zero_iff, Ne, fracField_eq_zero_iff]
  omega

/-- The infinities and the NaNs together are the patterns of exponent 2047 (00_scope.md R12). -/
theorem floatClass_eq_nan_or_infinite_iff (f : Word) :
    floatClass f = .nan ∨ floatClass f = .infinite ↔ 0x7FF0000000000000 ≤ f.toNat % 2 ^ 63 := by
  have hfields : floatClass f = .nan ∨ floatClass f = .infinite ↔ expField f = 2047 := by
    unfold floatClass
    split_ifs with hexp hfrac htop hfrac <;> simp_all
  rw [hfields, expField_eq_top_iff]
  omega

theorem f2x_eq_unrep_iff_toNat (off : Int) (f : Word) :
    f2x off f = .unrep ↔ (1 ≤ f.toNat % 2 ^ 63 ∧ f.toNat % 2 ^ 63 ≤ 0x000FFFFFFFFFFFFF) ∨
      0x7FF0000000000000 ≤ f.toNat % 2 ^ 63 := by
  rw [f2x_eq_unrep_iff, ← or_assoc, floatClass_eq_nan_or_infinite_iff, floatClass_eq_subnormal_iff, or_comm]

/-! ### The obligations -/

/-- Settles O13: F2X fails on the ranges of its failing classes and otherwise gives a plain result, and only F2X can fail. -/
theorem unrepExactlyForSubnormalInfiniteAndNan : Obligations.UnrepExactlyForSubnormalInfiniteAndNan := by
  refine ⟨fun off s q => ⟨fun hbad => ?_, fun hgood => ?_⟩, fun i s q hi hunrep => ?_⟩
  · exact (exec_answers_iff _ s q _).mpr ((f2x_eq_unrep_iff_toNat off q.a).mpr hbad)
  · obtain hu | ⟨y, hy⟩ := f2x_cases off q.a
    · exact absurd ((f2x_eq_unrep_iff_toNat off q.a).mp hu) hgood
    · exact ⟨y, (exec_answers_iff _ s q _).mpr hy⟩
  · rw [exec_answers_iff, responseOf_eq_unrep_iff] at hunrep
    obtain ⟨⟨off, hoff⟩, -⟩ := hunrep
    exact hi off hoff

/-- Settles O39: a turn's answer is the pure function, whose ILL comes from the decoder and whose UNREP from F2X. -/
theorem illegalWordWinsOverUnrepresentableOperand : Obligations.IllegalWordWinsOverUnrepresentableOperand := by
  intro s q
  rw [step_answers_iff, step_answers_iff]
  exact ⟨respond_eq_ill_iff s.config q, decode_of_respond_eq_unrep⟩

end Sys2Proof.Machine
end

section
/-! Commands and words correspond one to one (30_encoding.md R60 to R65): encoding and decoding undo each other, and the legal
words are told by their fields. -/

namespace Sys2Proof

/-! ### The obligations -/

/-- Settles O5: the word of a well-formed command has the command's own fields, and its immediate is read back unchanged. -/
theorem decodeOfEncodeIsTheCommand : Obligations.DecodeOfEncodeIsTheCommand :=
  fun _ hwf => decode_encode hwf

/-- Settles O6: the fields a word decodes by are all of its bits. -/
theorem encodeOfDecodeIsTheWord : Obligations.EncodeOfDecodeIsTheWord := by
  intro w i hd
  obtain ⟨hwf, hw⟩ := decode_eq_ok_iff.mp hd
  exact ⟨hwf, hw.symm⟩

/-- Settles O3: the conditions on the fields describe the list of legal words. -/
theorem legalWordsAreThoseWithLegalFields : Obligations.LegalWordsAreThoseWithLegalFields := by
  intro w
  rw [exists_decode_iff_mem_legalWords, mem_legalWords_iff]
  omega

/-- Settles O7: each written-out word is the encoding of its command. -/
theorem writtenOutWordsDecodeToTheirCommands : Obligations.WrittenOutWordsDecodeToTheirCommands := by
  refine ⟨?_, ?_, ?_, ?_, ?_, ?_, ?_, ?_, ?_, ?_, ?_, ?_, ?_, ?_⟩ <;> exact decode_eq_ok_iff.mpr (by decide)

end Sys2Proof
end

section
/-! A turn of the engine and its frame (10_state.md R20, 20_memory.md R50, 70_reset_and_hazards.md R160, R164): what `step` and
`exec` change, from every state, and the run that answers all requests. -/

namespace Sys2Proof.Machine

/-! ### One turn -/

theorem exec_of_pending_nil {s : State} (i : Instr) (h : s.pending = []) : exec i s = .next s := by
  rw [exec_eq_command, command_of_pending_nil _ h]

/-- A turn ends in a next state, with one request less in flight, if there was one, and one response more. -/
theorem step_completes (s : State) : ∃ t, step s = .next t ∧ t.pending.length = s.pending.length - 1 ∧
    t.responses.length = s.responses.length + min 1 s.pending.length := by
  cases hp : s.pending with
  | nil => exact ⟨s, step_of_pending_nil hp, by simp [hp], by simp⟩
  | cons q rest =>
    rw [State.eq_withOldest hp, step_withOldest]
    exact ⟨_, rfl, by simp, by simp⟩

/-- The frame of every command: it takes the oldest request away and puts one response behind the others. -/
theorem exec_frame {i : Instr} {s t : State} {q : Request} {rest : List Request} (hp : s.pending = q :: rest)
    (h : exec i s = .next t) :
    t.config = s.config ∧ t.pending = rest ∧ t.responses = s.responses ++ [responseOf i s.config q] := by
  rw [State.eq_withOldest hp, exec_withOldest] at h
  obtain rfl := Host.Outcome.next.inj h
  exact ⟨rfl, rfl, rfl⟩

/-- Only MUL, ADDW and ADDS read operand B (30_encoding.md R62). -/
theorem responseOf_operandB {i : Instr} (hmul : i ≠ .mul) (haddw : i ≠ .addw) (hadds : i ≠ .adds) (c : Config)
    (q : Request) (b : Word) : responseOf i c { q with b := b } = responseOf i c q := by
  cases i with
  | mul => exact absurd rfl hmul
  | addw => exact absurd rfl haddw
  | adds => exact absurd rfl hadds
  | raw | f2x | x2f | sin | cos | sinf | cosf | ldc => rfl

/-- A fresh request sent to a block with none in flight is its oldest one. -/
theorem State.request_eq_withOldest {s : State} (h : s.pending = []) (q : Request) : s.request q = s.withOldest q := by
  rw [State.request, State.withOldest, h, List.nil_append]

/-! ### As many turns as requests -/

/-- A run goes on after a turn that ends in a next state. -/
theorem run_succ_of_step {s t : State} (h : step s = .next t) (k : Nat) :
    Sys2Proof.core.run (k + 1) s = Sys2Proof.core.run k t := by
  have hcore : Sys2Proof.core.step s = .next t := h
  simp only [Host.Core.run, hcore]

/-- By induction on the requests in flight: each turn moves the response of the oldest one behind those offered. -/
theorem run_answers_pending (qs : List Request) (s : State) (h : s.pending = qs) :
    Sys2Proof.core.run qs.length s =
      .next { s with pending := [], responses := s.responses ++ qs.map (respond s.config) } := by
  induction qs generalizing s with
  | nil =>
    rw [List.map_nil, List.append_nil, ← h]
    exact congrArg (Sys2Proof.core.run · s) (congrArg List.length h)
  | cons q rest ih =>
    rw [State.eq_withOldest h, List.length_cons, run_succ_of_step (step_withOldest _ q), ih _ rfl]
    simp

/-! ### The obligations -/

/-- Settles O52: a session is in order when what was taken and what the block owes together answer the requests issued, and
every move keeps that. -/
theorem everyMoveKeepsTheResponseOrder : Obligations.EveryMoveKeepsTheResponseOrder := by
  intro h m ho
  rw [List.append_assoc] at ho ⊢
  exact ⟨h.move_config m, Session.move_inOrder ho m⟩

/-- Settles O10: an idle turn changes nothing, and another answers the oldest request. -/
theorem everyTurnAnswersOneRequest : Obligations.EveryTurnAnswersOneRequest := step_completes

/-- Settles O37: the one response added is the command's own. -/
theorem commandsChangeOnlyTheirOwnRequest : Obligations.CommandsChangeOnlyTheirOwnRequest := by
  intro i s t q rest hp h
  obtain ⟨hconfig, hpending, hresponses⟩ := exec_frame hp h
  exact ⟨hconfig, hpending, _, hresponses⟩

/-- Settles O42: the response of LDC reads the configuration alone, that of the other commands named no operand B. -/
theorem unusedOperandsAreIgnored : Obligations.UnusedOperandsAreIgnored := by
  intro i s q a b
  refine ⟨responseOf i s.config q, exec_withOldest i s q, fun hmul haddw hadds => ?_, ?_⟩
  · rw [exec_withOldest, responseOf_operandB hmul haddw hadds]
  · rintro k rfl
    exact exec_withOldest (.ldc k) s _

/-- Settles O43, by induction on the requests in flight. -/
theorem runAnswersAllRequestsInOrder : Obligations.RunAnswersAllRequestsInOrder :=
  fun s => run_answers_pending s.pending s rfl

/-- Settles O8: both sides answer the request by the decoded command's response. -/
theorem stepRunsTheDecodedCommand : Obligations.StepRunsTheDecodedCommand := by
  intro s q i hd
  rw [step_withOldest, exec_withOldest, respond_of_decode hd]

/-- Settles O9: there is no request to answer. -/
theorem noRequestNoChange : Obligations.NoRequestNoChange :=
  fun _ hp => ⟨step_of_pending_nil hp, fun i => exec_of_pending_nil i hp⟩

/-- Settles O48: after `rst` the next request is the oldest, and its response depends on the configuration alone. -/
theorem assertResetDropsWhatIsOwedAndNothingElse : Obligations.AssertResetDropsWhatIsOwedAndNothingElse := by
  intro s q
  refine ⟨rfl, rfl, rfl, respond s.config q, ?_, fun t hc => ?_⟩
  · rw [State.request_eq_withOldest s.assertReset_pending, step_withOldest, State.assertReset_config]
  · rw [step_withOldest, hc]

end Sys2Proof.Machine
end

section
/-! The invariant (20_memory.md R43, 10_state.md R33): every response the pure function gives is sound, so a turn and every
move of the host keep the invariant, and the default table has it at reset. -/

namespace Sys2Proof.Machine

/-! ### Every response is sound -/

theorem Response.sound_of_one_eq_false {r : Response} (h : r.one = false) : r.Sound :=
  fun hone => absurd hone (by rw [h]; decide)

/-- The sentinel comes with magnitude 0 (44_trig.md R117). -/
theorem sincore_mag_of_one {c : Config} {x : Word} (h : (sincore c x).one = true) : (sincore c x).mag = 0 := by
  rw [sincore_one, decide_eq_true_iff] at h
  rw [sincore, if_pos h]

/-- The sentinel's float is 1.0 with the sign of the sine (44_trig.md R125). -/
theorem sm2f_of_one {r : Sine} (h : r.one = true) :
    sm2f r = if r.neg then 0xBFF0000000000000 else 0x3FF0000000000000 := by
  rw [sm2f, if_pos h]
  cases r.neg <;> decide

theorem magnitudeResponse_sincore_sound (c : Config) (x : Word) : (magnitudeResponse (sincore c x)).Sound :=
  fun hone => .inl (sincore_mag_of_one hone)

theorem floatResponse_sound (r : Sine) : (floatResponse r).Sound := fun hone => .inr (sm2f_of_one hone)

theorem responseOf_sound (i : Instr) (c : Config) (q : Request) : (responseOf i c q).Sound := by
  cases i with
  | sin | cos => exact magnitudeResponse_sincore_sound c _
  | sinf | cosf => exact floatResponse_sound _
  | f2x off => exact Response.sound_of_one_eq_false (f2x_flags off q.a).2
  | raw | x2f | mul | addw | adds | ldc => exact Response.sound_of_one_eq_false rfl

theorem respond_sound (c : Config) (q : Request) : (respond c q).Sound := by
  cases hd : decode q.cmd with
  | ok i => rw [respond_of_decode hd]; exact responseOf_sound i c q
  | error e => rw [respond_of_reserved hd]; exact Response.sound_of_one_eq_false rfl

/-! ### The invariant along turns and moves -/

/-- The invariant speaks of the configuration and the responses only, so it is kept by whatever keeps the one and adds sound
responses to the other. -/
theorem State.Inv.of_responses {s t : State} (h : s.Inv) (hc : t.config = s.config)
    (hr : ∀ r ∈ t.responses, r ∈ s.responses ∨ r.Sound) : t.Inv := by
  obtain ⟨hadmitted, hsound⟩ := h
  exact ⟨hc ▸ hadmitted, fun r hmem => (hr r hmem).elim (hsound r) id⟩

theorem step_inv {s t : State} (h : s.Inv) (hstep : step s = .next t) : t.Inv := by
  refine h.of_responses (step_config hstep) fun r hr => ?_
  obtain ⟨-, rfl⟩ | ⟨q, rest, -, rfl⟩ := step_next_cases hstep
  · exact .inl hr
  · rw [State.withResponse_responses, List.mem_append, List.mem_singleton] at hr
    obtain hold | rfl := hr
    · exact .inl hold
    · exact .inr (respond_sound s.config q)

theorem State.afterTurn_inv {s : State} (h : s.Inv) : s.afterTurn.Inv := by
  obtain ⟨t, ht, -⟩ := step_completes s
  rw [State.afterTurn, ht]
  exact step_inv h ht

theorem Session.move_inv {h : Session} (hi : h.block.Inv) (m : Move) : (h.move m).block.Inv := by
  cases m with
  | request q => exact hi.of_responses rfl fun r hr => .inl hr
  | work => exact State.afterTurn_inv hi
  | reset => exact hi.of_responses rfl fun r hr => nomatch hr
  | take =>
    cases hr : h.block.responses with
    | nil => rwa [Session.move_take_of_nil hr]
    | cons r rest =>
      rw [Session.move_take_of_cons hr]
      exact hi.of_responses rfl fun r' hr' => .inl (hr ▸ List.mem_cons_of_mem r hr')

theorem Session.start_inv {c : Config} (h : c.Admitted) : (Session.start c).block.Inv :=
  ⟨h, fun _ hr => nomatch hr⟩

/-! ### The default table -/

/-- Each entry of the default table is at most the next one. -/
theorem defaultCurve_isChain : defaultCurve.toList.IsChain (· ≤ ·) := by decide +kernel

/-- Neighbours do not decrease, so no pair of entries does. -/
theorem defaultCurve_mono (i j : Fin 256) (hij : i < j) : defaultCurve[i] ≤ defaultCurve[j] := by
  have hsorted := List.pairwise_iff_getElem.mp defaultCurve_isChain.pairwise
  simpa using hsorted i j (by simp) (by simp) hij

/-- The default table meets 20_memory.md R43. -/
theorem defaultConfig_admitted : defaultConfig.Admitted := ⟨by decide +kernel, defaultCurve_mono⟩

/-! ### The obligations -/

/-- Settles O45: a turn keeps the table and adds at most one response, which is sound. -/
theorem everyTurnKeepsTheInvariant : Obligations.EveryTurnKeepsTheInvariant := fun _ _ => step_inv

/-- Settles O47: a fresh block has no response, and every move keeps the invariant. -/
theorem sessionsKeepTheInvariant : Obligations.SessionsKeepTheInvariant := fun _ moves hc =>
  Session.run_induction (P := fun h => h.block.Inv) (fun _ m hi => Session.move_inv hi m) (Session.start_inv hc) moves

/-- Settles O46: the default table is admitted, and no response is offered. -/
theorem resetMeetsTheInvariant : Obligations.ResetMeetsTheInvariant := ⟨defaultConfig_admitted, fun _ hr => nomatch hr⟩

/-- Settles O49: the table's check values are computed from its entries. -/
theorem resetStateHoldsTheDefaults : Obligations.ResetStateHoldsTheDefaults :=
  ⟨rfl, rfl, rfl, by decide +kernel, by decide +kernel, by decide +kernel, by decide +kernel⟩

end Sys2Proof.Machine
end

section
/-! What the host reads and sends: the fields of a response (10_state.md R22; 60_exceptions.md R140, R141), a line of a host
program (30_encoding.md R71), and the product with a unit constant (43_constants.md). -/

namespace Sys2Proof.Machine

/-! ### The port fields and the product with a constant -/

theorem Response.fl_toNat (r : Response) : r.fl.toNat = 8 * r.one.toNat + 4 * r.neg.toNat + r.status.code.toNat := by
  cases r with
  | ok y neg one =>
    change (BitVec.ofBool one ++ BitVec.ofBool neg ++ Status.ok.code).toNat = 8 * one.toNat + 4 * neg.toNat + 0
    revert neg one
    decide
  | unrep | ill => rfl

theorem Status.code_ne_three (st : Status) : st.code ≠ 3 := by cases st <;> decide

theorem Response.fields_of_status_ne_ok {r : Response} (h : r.status ≠ .ok) :
    r.y = 0 ∧ r.neg = false ∧ r.one = false := by
  cases r with
  | ok y neg one => exact absurd rfl h
  | unrep | ill => exact ⟨rfl, rfl, rfl⟩

/-- The second factor is below 2^64, so the upper half of the product is below a first factor other than 0. -/
theorem mulhi_lt {a : Word} (ha : a ≠ 0) (b : Word) : mulhi a b < a := by
  have hpos : 0 < a.toNat := Nat.pos_of_ne_zero fun h => ha (BitVec.eq_of_toNat_eq h)
  rw [BitVec.lt_def, mulhi_toNat]
  exact Nat.div_lt_of_lt_mul (mul_comm (2 ^ 64) a.toNat ▸ Nat.mul_lt_mul_of_pos_left b.isLt hpos)

/-! ### The obligations -/

/-- Settles O50: the line's request is answered by its command's own response. -/
theorem lineRunsAsItsRequest : Obligations.LineRunsAsItsRequest := fun _ _ _ _ _ hwf ha hb hs =>
  ⟨assemble_eq hwf ha hb, rfl, _, exec_withOldest _ _ _, runLine_eq hs hwf ha hb⟩

/-- Settles O25: the product of a constant other than 0 and any word is below the constant. -/
theorem angleInUnitsStaysBelowOneRotation : Obligations.AngleInUnitsStaysBelowOneRotation := by
  intro s q
  refine ⟨fun ha => ⟨mulhi q.a q.b, exec_withOldest .mul s q, ?_⟩,
    fun ha htau => ⟨mulhi q.a q.b, exec_withOldest .mul s q, ?_⟩⟩
  · rw [ha]
    exact mulhi_lt (by decide) q.b
  · rw [ha]
    exact mulhi_lt htau q.b

/-- Settles O40, by the cases of a response. -/
theorem portFieldsEncodeTheResponse : Obligations.PortFieldsEncodeTheResponse :=
  ⟨fun r => ⟨r.fl_toNat, r.status.code_ne_three, Response.fields_of_status_ne_ok⟩,
    fun _ _ _ => ⟨rfl, rfl, rfl, rfl⟩, rfl, rfl⟩

end Sys2Proof.Machine
end

section
/-! The symmetries of the sine (44_trig.md R126): the half turn flips the sign bit, the supplement 2^63 - x is reflected onto
the same quarter angle, and negation is the two together. -/

namespace Sys2Proof.Machine

/-! ### The angle half a turn further, and the supplement -/

theorem belowHalf_add_halfTurn (x : Word) : belowHalf (x + halfTurn) = belowHalf x := by
  apply BitVec.eq_of_toNat_eq
  rw [belowHalf_toNat, belowHalf_toNat, BitVec.toNat_add, halfTurn_toNat]
  omega

theorem signBit_add_halfTurn (x : Word) : signBit (x + halfTurn) = !signBit x := by
  have hx := x.isLt
  rw [signBit_eq, signBit_eq, BitVec.toNat_add, halfTurn_toNat, ← decide_not, decide_eq_decide]
  omega

theorem belowHalf_halfTurn_sub_toNat (x : Word) :
    (belowHalf (halfTurn - x)).toNat = (2 ^ 63 - (belowHalf x).toNat) % 2 ^ 63 := by
  have hx := x.isLt
  rw [belowHalf_toNat, belowHalf_toNat, BitVec.toNat_sub, halfTurn_toNat]
  omega

/-- The supplement lies in the same half, but for the two angles that are exact half turns. -/
theorem signBit_halfTurn_sub {x : Word} (h0 : x ≠ 0) (h1 : x ≠ halfTurn) : signBit (halfTurn - x) = signBit x := by
  have hx := x.isLt
  have h0' : x.toNat ≠ 0 := fun h => h0 (BitVec.eq_of_toNat_eq h)
  have h1' : x.toNat ≠ 2 ^ 63 := fun h => h1 (BitVec.eq_of_toNat_eq (h.trans halfTurn_toNat.symm))
  rw [signBit_eq, signBit_eq, BitVec.toNat_sub, halfTurn_toNat, decide_eq_decide]
  omega

theorem belowHalf_lt (x : Word) : (belowHalf x).toNat < 2 ^ 63 := by
  rw [belowHalf_toNat]
  exact Nat.mod_lt _ (by decide)

/-- An angle and its supplement have one reflection (44_trig.md R117). -/
theorem reflect_supplement (x : Word) : reflect (belowHalf (halfTurn - x)) = reflect (belowHalf x) := by
  have hx := belowHalf_lt x
  apply BitVec.eq_of_toNat_eq
  rw [reflect_toNat (belowHalf_lt _), reflect_toNat hx, belowHalf_halfTurn_sub_toNat]
  split <;> split <;> omega

theorem belowHalf_supplement_eq_quarterTurn_iff (x : Word) :
    belowHalf (halfTurn - x) = quarterTurn ↔ belowHalf x = quarterTurn := by
  have hx := belowHalf_lt x
  rw [← BitVec.toNat_inj, ← BitVec.toNat_inj, belowHalf_halfTurn_sub_toNat, quarterTurn_toNat]
  omega

/-! ### The evaluator -/

/-- Beside the sign the evaluator reads two things of the angle: whether it is the sentinel's, and its reflection. -/
theorem sincore_congr (c : Config) {x y : Word} (hone : belowHalf x = quarterTurn ↔ belowHalf y = quarterTurn)
    (hmag : reflect (belowHalf x) = reflect (belowHalf y)) : sincore c x = { sincore c y with neg := signBit x } := by
  by_cases h : belowHalf y = quarterTurn
  · rw [sincore, if_pos (hone.mpr h), sincore, if_pos h]
  · rw [sincore, if_neg (mt hone.mp h), sincore, if_neg h, hmag]

theorem sincore_add_halfTurn (c : Config) (x : Word) :
    sincore c (x + halfTurn) = { sincore c x with neg := !(sincore c x).neg } := by
  rw [sincore_congr c (by rw [belowHalf_add_halfTurn]) (congrArg reflect (belowHalf_add_halfTurn x)),
    signBit_add_halfTurn, sincore_neg]

theorem sincore_supplement (c : Config) (x : Word) :
    sincore c (halfTurn - x) = { sincore c x with neg := signBit (halfTurn - x) } :=
  sincore_congr c (belowHalf_supplement_eq_quarterTurn_iff x) (reflect_supplement x)

theorem sincore_supplement_of_ne (c : Config) {x : Word} (h0 : x ≠ 0) (h1 : x ≠ halfTurn) :
    sincore c (halfTurn - x) = sincore c x := by
  rw [sincore_supplement, signBit_halfTurn_sub h0 h1, ← sincore_neg c]

/-- The negated angle is the supplement half a turn further. -/
theorem neg_eq_supplement_add_halfTurn (x : Word) : -x = halfTurn - x + halfTurn := by
  have hturn : halfTurn + halfTurn = 0 := by decide
  rw [sub_add_eq_add_sub, hturn, zero_sub]

theorem sincore_neg_angle (c : Config) {x : Word} (h0 : x ≠ 0) (h1 : x ≠ halfTurn) :
    sincore c (-x) = { sincore c x with neg := !(sincore c x).neg } := by
  rw [neg_eq_supplement_add_halfTurn, sincore_add_halfTurn, sincore_supplement_of_ne c h0 h1]

/-- At the exact half turns the bypass at index 0 gives epsilon in radians, which is 0 there (44_trig.md R120). -/
theorem sincore_of_exact_halfTurn (c : Config) {x : Word} (h : x = 0 ∨ x = halfTurn) :
    (sincore c x).mag = 0 ∧ (sincore c x).one = false := by
  have hb : belowHalf x = 0 := by rcases h with rfl | rfl <;> decide
  have hr : reflect 0 = 0 := by decide
  have hidx : coarseIndex 0 = 0 := by decide
  have hrad : radians c (epsilon 0) = 0 := BitVec.eq_of_toNat_eq (by rw [radians_toNat, epsilon_toNat]; simp)
  rw [sincore, hb, if_neg (by decide), hr, quarterSine, hidx, correct, if_pos rfl, hrad]
  exact ⟨rfl, rfl⟩

/-! ### The sign bit of a pattern -/

/-- Flipping bit 63 replaces the sign by its opposite (00_scope.md R12). -/
theorem withSign_xor_halfTurn (neg : Bool) (f : Word) : withSign neg f ^^^ halfTurn = withSign (!neg) f := by
  have hparts : halfTurn = BitVec.ofBool true ++ 0#63 := by decide
  have hbit : BitVec.ofBool neg ^^^ BitVec.ofBool true = BitVec.ofBool (!neg) := by cases neg <;> decide
  rw [hparts, withSign, withSign, BitVec.xor_append, hbit, BitVec.xor_zero]

theorem sm2f_opposite (r : Sine) : sm2f { r with neg := !r.neg } = sm2f r ^^^ halfTurn :=
  (withSign_xor_halfTurn r.neg _).symm

/-! ### The cosine's angle -/

/-- Negation makes the cosine's angle its supplement (44_trig.md R122). -/
theorem advance_neg (x : Word) : advance (-x) = halfTurn - advance x := by
  have hturn : halfTurn = quarterTurn + quarterTurn := by decide
  rw [advance, advance, wrapAdd_eq_add, wrapAdd_eq_add, hturn]
  ring

theorem advance_eq_zero_iff (x : Word) : advance x = 0 ↔ x = 0xC000000000000000 := by
  rw [advance, wrapAdd_eq_add, add_eq_zero_iff_eq_neg]
  rfl

theorem advance_eq_halfTurn_iff (x : Word) : advance x = halfTurn ↔ x = quarterTurn := by
  have hturn : halfTurn = quarterTurn + quarterTurn := by decide
  rw [advance, wrapAdd_eq_add, hturn, add_left_inj]

/-! ### The responses -/

theorem magnitudeResponse_withNeg (r : Sine) (neg : Bool) :
    magnitudeResponse { r with neg := neg } = .ok r.mag neg r.one := rfl

section
variable {s : State} {q : Request} {r : Sine}

theorem exec_sin_of_sincore (h : sincore s.config q.a = r) :
    exec .sin (s.withOldest q) = .next (s.withResponse (magnitudeResponse r)) :=
  h ▸ exec_withOldest .sin s q

theorem exec_sinf_of_sincore (h : sincore s.config q.a = r) :
    exec .sinf (s.withOldest q) = .next (s.withResponse (floatResponse r)) :=
  h ▸ exec_withOldest .sinf s q

theorem exec_cos_of_sincore (h : sincore s.config (advance q.a) = r) :
    exec .cos (s.withOldest q) = .next (s.withResponse (magnitudeResponse r)) :=
  h ▸ exec_withOldest .cos s q

end

/-! ### The obligations -/

/-- Settles O31: the sign of the sine is bit 63 of its float. -/
theorem halfTurnFlipsOnlyTheSign : Obligations.HalfTurnFlipsOnlyTheSign := by
  intro s q
  have hturn := sincore_add_halfTurn s.config q.a
  have hsin := exec_sin_of_sincore (q := { q with a := q.a + halfTurn }) hturn
  have hsinf := exec_sinf_of_sincore (q := { q with a := q.a + halfTurn }) hturn
  rw [floatResponse, sm2f_opposite] at hsinf
  exact ⟨_, _, _, _, exec_sin_of_sincore rfl, hsin, exec_sinf_of_sincore rfl, hsinf⟩

/-- Settles O32: the angle is neither 0 nor half a turn. -/
theorem supplementaryAnglesHaveOneSine : Obligations.SupplementaryAnglesHaveOneSine := by
  intro s q hpos hlt
  have h0 : q.a ≠ 0 := fun h => by simp [h] at hpos
  have h1 : q.a ≠ halfTurn := fun h => by simp [h, halfTurn_toNat] at hlt
  exact ⟨_, exec_sin_of_sincore rfl, exec_sin_of_sincore (sincore_supplement_of_ne s.config h0 h1)⟩

/-- Settles O33: away from the exact half turns the sine of the negated angle is the opposite one. -/
theorem sineIsOdd : Obligations.SineIsOdd := by
  intro s q
  refine ⟨_, _, _, exec_sin_of_sincore rfl, fun h0 h1 => ?_, ?_⟩
  · have hneg := exec_sin_of_sincore (q := { q with a := -q.a }) (sincore_neg_angle s.config h0 h1)
    exact hneg
  · rintro (h | h) <;> rw [h] <;> decide

/-- Settles O34: the cosine's angle becomes its supplement, which has another sign only at the exact half turns. -/
theorem cosineIsEven : Obligations.CosineIsEven := by
  intro s q
  have hsupplement := sincore_supplement s.config (advance q.a)
  rw [← advance_neg] at hsupplement
  have hneg := exec_cos_of_sincore (q := { q with a := -q.a }) hsupplement
  rw [magnitudeResponse_withNeg] at hneg
  refine ⟨_, _, _, _, exec_cos_of_sincore rfl, hneg, fun h1 h3 => ?_, fun h => ?_⟩
  · rw [advance_neg, signBit_halfTurn_sub (mt (advance_eq_zero_iff q.a).mp h3) (mt (advance_eq_halfTurn_iff q.a).mp h1),
      sincore_neg]
  · exact sincore_of_exact_halfTurn s.config
      (h.symm.imp (advance_eq_zero_iff q.a).mpr (advance_eq_halfTurn_iff q.a).mpr)

end Sys2Proof.Machine
end

section
/-! The table and the ranges of the sine path: which entries are read (20_memory.md R53), and that no intermediate value
overflows unseen (44_trig.md R127). -/

namespace Sys2Proof.Machine

/-! ### Entry 0 is never read -/

/-- The configuration with entry 0 of the table replaced. -/
def withEntryZero (c : Config) (v : Word) : Config := { c with curve := c.curve.set 0 v }

theorem curveAt_withEntryZero (c : Config) (v : Word) {i : BitVec 8} (h : i ≠ 0) :
    curveAt (withEntryZero c v) i = curveAt c i := by
  have hne : 0 ≠ i.toNat := fun h0 => h (BitVec.eq_of_toNat_eq h0.symm)
  exact Vector.getElem_set_ne (by decide) i.isLt hne

theorem mirror_ne_zero {idx : BitVec 8} (h : idx ≠ 0) : mirror idx ≠ 0 := by
  have hlt := idx.isLt
  intro h0
  have := mirror_toNat h
  rw [h0] at this
  change 0 = _ at this
  omega

/-- Index 0 bypasses the table, and another index reads two entries other than 0 (44_trig.md R120). -/
theorem correct_withEntryZero (c : Config) (v : Word) (idx : BitVec 8) (b : Word) :
    correct (withEntryZero c v) idx b = correct c idx b := by
  by_cases h : idx = 0
  · rw [correct, if_pos h, correct, if_pos h]
  · rw [correct, if_neg h, correct, if_neg h, curveAt_withEntryZero c v h, curveAt_withEntryZero c v (mirror_ne_zero h)]

theorem sincore_withEntryZero (c : Config) (v : Word) (x : Word) :
    sincore (withEntryZero c v) x = sincore c x := by
  have hquarter (q : Word) : quarterSine (withEntryZero c v) q = quarterSine c q :=
    correct_withEntryZero c v _ _
  simp only [sincore, hquarter]

theorem responseOf_withEntryZero (i : Instr) (c : Config) (v : Word) (q : Request) :
    responseOf i (withEntryZero c v) q = responseOf i c q := by
  cases i with
  | sin | cos => exact congrArg magnitudeResponse (sincore_withEntryZero c v _)
  | sinf | cosf => exact congrArg floatResponse (sincore_withEntryZero c v _)
  | ldc k => cases k <;> rfl
  | raw | f2x | x2f | mul | addw | adds => rfl

theorem respond_withEntryZero (c : Config) (v : Word) (q : Request) :
    respond (withEntryZero c v) q = respond c q := by
  cases hd : decode q.cmd with
  | ok i => rw [respond_of_decode hd, respond_of_decode hd, responseOf_withEntryZero]
  | error e => rw [respond_of_reserved hd, respond_of_reserved hd]

/-! ### The angles of the table entries -/

/-- The sine of an angle below a quarter turn: step 2 leaves the angle as it is (44_trig.md R115 to R118). -/
theorem sincore_of_lt_quarterTurn (c : Config) {x : Word} (h : x.toNat < 2 ^ 62) :
    sincore c x = { neg := false, one := false, mag := quarterSine c x } := by
  have hb : belowHalf x = x := BitVec.eq_of_toNat_eq (by rw [belowHalf_toNat, Nat.mod_eq_of_lt (by omega)])
  have hne : ¬ x = quarterTurn := fun h' => by rw [h', quarterTurn_toNat] at h; omega
  have hr : reflect x = x := BitVec.eq_of_toNat_eq (by rw [reflect_toNat (by omega), if_pos h])
  have hs : signBit x = false := by rw [signBit_eq, decide_eq_false_iff_not]; omega
  rw [sincore, hb, if_neg hne, hr, hs]

/-- Epsilon is 0 at the angle of a table entry, and so is the correction (44_trig.md R119, R120). -/
theorem quarterSine_of_epsilon_eq_zero (c : Config) {q : Word} (hidx : coarseIndex q ≠ 0) (heps : epsilon q = 0) :
    quarterSine c q = curveAt c (coarseIndex q) := by
  apply BitVec.eq_of_toNat_eq
  have h := (curveAt c (coarseIndex q)).isLt
  have hrad : (radians c 0).toNat = 0 := by rw [radians_toNat]; simp
  rw [quarterSine, heps, correct, if_neg hidx, satAdd_toNat, mulhi_toNat, hrad, Nat.mul_zero, Nat.zero_div]
  omega

theorem sincore_of_entry (c : Config) {i : Nat} (h0 : i ≠ 0) (hi : i < 256) :
    sincore c (BitVec.ofNat 64 (i * 2 ^ 54)) = { neg := false, one := false, mag := c.curve[i] } := by
  have hx : (BitVec.ofNat 64 (i * 2 ^ 54)).toNat = i * 2 ^ 54 := by
    rw [BitVec.toNat_ofNat, Nat.mod_eq_of_lt (by omega)]
  have hidx : (coarseIndex (BitVec.ofNat 64 (i * 2 ^ 54))).toNat = i := by
    rw [coarseIndex_toNat, hx]
    omega
  have hidx0 : coarseIndex (BitVec.ofNat 64 (i * 2 ^ 54)) ≠ 0 := fun h => h0 (by rw [← hidx, h]; rfl)
  have heps : epsilon (BitVec.ofNat 64 (i * 2 ^ 54)) = 0 :=
    BitVec.eq_of_toNat_eq (by rw [epsilon_toNat, hx, Nat.mul_mod_left]; rfl)
  rw [sincore_of_lt_quarterTurn c (by omega), quarterSine_of_epsilon_eq_zero c hidx0 heps]
  simp only [curveAt, hidx]

/-! ### Ranges of the intermediate values -/

theorem shl64_epsilon_toNat (eps : BitVec 54) : (shl64 (eps.setWidth 64) 3).toNat = eps.toNat * 8 := by
  have h := eps.isLt
  rw [shl64_toNat, BitVec.toNat_setWidth]
  omega

/-- The product of `radians` stays below 2^57 * 2^64. -/
theorem radians_product_lt (c : Config) (eps : BitVec 54) : eps.toNat * 8 * c.tauBits.toNat < 2 ^ 121 := by
  have h := eps.isLt
  calc eps.toNat * 8 * c.tauBits.toNat < 2 ^ 57 * 2 ^ 64 := Nat.mul_lt_mul'' (by omega) c.tauBits.isLt
    _ = 2 ^ 121 := by norm_num

theorem radians_lt (c : Config) (eps : BitVec 54) : (radians c eps).toNat < 2 ^ 57 := by
  rw [radians_toNat]
  exact Nat.div_lt_of_lt_mul (radians_product_lt c eps)

/-- Past index 0 the correction is the exact sum, clamped at 2^64 - 1 (44_trig.md R120). -/
theorem correct_toNat_of_ne_zero (c : Config) {idx : BitVec 8} (h : idx ≠ 0) (b : Word) :
    (correct c idx b).toNat =
      if (curveAt c idx).toNat + (mulhi (curveAt c (mirror idx)) b).toNat < 2 ^ 64
      then (curveAt c idx).toNat + (mulhi (curveAt c (mirror idx)) b).toNat else 2 ^ 64 - 1 := by
  rw [correct, if_neg h, satAdd_toNat]
  split <;> omega

/-! ### The obligations -/

/-- Settles O35: epsilon is 0 at these angles, so the correction adds nothing; the index 0 bypasses the table, and another one
is mirrored to an index other than 0. -/
theorem tableEntriesShowAsSines : Obligations.TableEntriesShowAsSines := by
  refine ⟨fun s q i hi hq => ?_, respond_withEntryZero⟩
  have hi0 : i.val ≠ 0 := fun h => hi (Fin.ext h)
  exact exec_sin_of_sincore (hq ▸ sincore_of_entry s.config hi0 i.isLt)

/-- Settles O36: each bound is that of its step. -/
theorem sineIntermediatesStayInRange : Obligations.SineIntermediatesStayInRange := by
  intro c x
  refine ⟨fun eps => ?_, fun idx eps => ⟨mulhi_le _ _, fun h => correct_toNat_of_ne_zero c h _⟩,
    fun hne => ⟨?_, fun hge => ?_⟩⟩
  · have hlt := eps.isLt
    have hprod := radians_product_lt c eps
    rw [mulwide_toNat, shl64_epsilon_toNat, constAt_tau]
    exact ⟨rfl, by omega, rfl, hprod, radians_lt c eps⟩
  · exact reflect_lt_quarterTurn (belowHalf_lt x) fun h => hne (BitVec.eq_of_toNat_eq (h.trans quarterTurn_toNat.symm))
  · have hlt := belowHalf_lt x
    rw [BitVec.lt_def, quarterTurn_toNat] at hge
    rw [reflect_toNat hlt, if_neg hge]
    omega

end Sys2Proof.Machine
end

section
/-! F2X over the rationals (41_fixed_convert.md R93 to R95): the shift of the significand is the floor of a scaled value modulo
2^64, and the sign bit only negates it. -/

namespace Sys2Proof.Machine

/-! ### The shift as a scaled floor -/

/-- A shift by `sh`, to the left or to the right, multiplies by 2^sh, drops the fraction and wraps (41_fixed_convert.md R91). -/
theorem shiftBy_toNat_eq_floor (m : Word) (sh : Int) :
    ((shiftBy m sh).toNat : Int) = ⌊(m.toNat : ℚ) * 2 ^ sh⌋ % 2 ^ 64 := by
  rw [shiftBy_toNat]
  by_cases h : 0 ≤ sh
  · lift sh to Nat using h
    have hcast : (m.toNat : ℚ) * 2 ^ (sh : Int) = (m.toNat * 2 ^ sh : Nat) := by push_cast; rfl
    rw [if_pos (Int.natCast_nonneg sh), Int.toNat_natCast, hcast, Int.floor_natCast]
    push_cast
    rfl
  · obtain ⟨k, rfl⟩ : ∃ k : Nat, sh = -k := ⟨(-sh).toNat, by omega⟩
    have hcast : (m.toNat : ℚ) * 2 ^ (-k : Int) = m.toNat / (2 ^ k : Nat) := by
      rw [zpow_neg, ← div_eq_mul_inv]
      push_cast
      rfl
    have hlt : m.toNat / 2 ^ k < 2 ^ 64 := (Nat.div_le_self _ _).trans_lt m.isLt
    rw [if_neg h, neg_neg, Int.toNat_natCast, hcast, Rat.floor_natCast_div_natCast, ← Int.natCast_div,
      Int.emod_eq_of_lt (Int.natCast_nonneg _) (by exact_mod_cast hlt)]

theorem f2xShift_eq (off : Int) (f : Word) : f2xShift off f = ((expField f).toNat : Int) - 1011 - off := by
  rw [f2xShift]
  ring

theorem significand_toNat_eq_fracField (f : Word) : (significand f).toNat = 2 ^ 52 + (fracField f).toNat := by
  rw [significand_toNat, fracField_toNat]

/-- The hidden 1 is bit 52 of the significand. -/
theorem significand_bounds (f : Word) : 2 ^ 52 ≤ (significand f).toNat ∧ (significand f).toNat < 2 ^ 53 := by
  rw [significand_toNat]
  omega

theorem normalMagnitude_eq (f : Word) :
    normalMagnitude f = (significand f).toNat * 2 ^ (((expField f).toNat : Int) - 1075) := by
  rw [normalMagnitude, significand_toNat_eq_fracField]
  push_cast
  rfl

/-- The absolute value of a float in units of 2^(off - 64) is its shifted significand before wrapping. -/
theorem normalMagnitude_scaled (off : Int) (f : Word) :
    normalMagnitude f * 2 ^ (64 - off) = (significand f).toNat * 2 ^ f2xShift off f := by
  rw [normalMagnitude_eq, mul_assoc, ← zpow_add₀ two_ne_zero, f2xShift_eq]
  congr 2
  ring

theorem f2xMagnitude_eq_floor (off : Int) (f : Word) :
    ((f2xMagnitude off f).toNat : Int) = ⌊normalMagnitude f * 2 ^ (64 - off)⌋ % 2 ^ 64 := by
  rw [normalMagnitude_scaled]
  exact shiftBy_toNat_eq_floor _ _

/-- A left shift of 64 or more leaves no bit of the significand. -/
theorem f2xMagnitude_eq_zero_of_shift_ge {off : Int} {f : Word} (h : 64 ≤ f2xShift off f) : f2xMagnitude off f = 0 := by
  apply BitVec.eq_of_toNat_eq
  rw [f2xMagnitude, shiftBy_toNat, if_pos (by omega)]
  exact Nat.mod_eq_zero_of_dvd (Dvd.dvd.mul_left (pow_dvd_pow 2 (by omega)) _)

/-- A right shift of 53 or more leaves no bit of the significand. -/
theorem f2xMagnitude_eq_zero_of_shift_le {off : Int} {f : Word} (h : f2xShift off f ≤ -53) : f2xMagnitude off f = 0 := by
  apply BitVec.eq_of_toNat_eq
  rw [f2xMagnitude, shiftBy_toNat, if_neg (by omega)]
  exact Nat.div_eq_of_lt ((significand_bounds f).2.trans_le (Nat.pow_le_pow_right (by decide) (by omega)))

/-! ### The answer for a normal float -/

theorem f2x_of_normal (off : Int) {f : Word} (h0 : expField f ≠ 0) (h1 : expField f ≠ 2047) :
    f2x off f = plain (f2xNormal off f) := by
  have hc : floatClass f = .normal := by rw [floatClass, if_neg h0, if_neg h1]
  rw [f2x, hc]
  rfl

theorem f2x_of_zero (off : Int) {f : Word} (h0 : expField f = 0) (ht : fracField f = 0) : f2x off f = plain 0 := by
  have hc : floatClass f = .zero := by rw [floatClass, if_pos h0, if_pos ht]
  rw [f2x, hc]

theorem f2xNormal_of_positive (off : Int) {f : Word} (h : signBit f = false) : f2xNormal off f = f2xMagnitude off f := by
  rw [f2xNormal, h]
  rfl

theorem f2xNormal_toNat (off : Int) (f : Word) :
    ((f2xNormal off f).toNat : Int) =
      if signBit f then (2 ^ 64 - ((f2xMagnitude off f).toNat : Int)) % 2 ^ 64 else ((f2xMagnitude off f).toNat : Int) := by
  have hlt := (f2xMagnitude off f).isLt
  rw [f2xNormal]
  split
  · rw [neg64_toNat]
    omega
  · rfl

theorem f2xNormal_eq_zero {off : Int} {f : Word} (h : f2xMagnitude off f = 0) : f2xNormal off f = 0 := by
  rw [f2xNormal, h]
  split <;> rfl

/-- Subtracting the multiple of 2^off below a value takes the multiple of 2^64 off its scaled floor (41_fixed_convert.md
R94). -/
theorem floor_scaled_remainder (v : ℚ) (off : Int) :
    ⌊(v - 2 ^ off * ⌊v / 2 ^ off⌋) * 2 ^ (64 - off)⌋ = ⌊v * 2 ^ (64 - off)⌋ % 2 ^ 64 := by
  have hsplit : (2 : ℚ) ^ off * 2 ^ (64 - off) = (2 ^ 64 : Nat) := by
    rw [← zpow_add₀ two_ne_zero, add_sub_cancel]
    norm_num
  have hquot : v / 2 ^ off = v * 2 ^ (64 - off) / (2 ^ 64 : Nat) := by
    rw [← hsplit, mul_div_mul_right _ _ (zpow_ne_zero _ two_ne_zero)]
  have hdiff : (v - 2 ^ off * ⌊v / 2 ^ off⌋) * 2 ^ (64 - off) =
      v * 2 ^ (64 - off) - ((2 ^ 64 : Nat) * ⌊v / 2 ^ off⌋ : Int) := by
    push_cast [sub_mul, mul_right_comm, hsplit]
    rfl
  rw [hdiff, Int.floor_sub_intCast, hquot, Int.floor_div_natCast, Int.emod_def]
  rfl

/-! ### The sign bit -/

theorem withSign_signBit (f : Word) : withSign (signBit f) f = f := by
  apply BitVec.eq_of_toNat_eq
  have hf := f.isLt
  by_cases h : 2 ^ 63 ≤ f.toNat
  · rw [withSign_toNat, signBit_eq, decide_eq_true h, Bool.toNat_true]
    omega
  · rw [withSign_toNat, signBit_eq, decide_eq_false h, Bool.toNat_false]
    omega

theorem xor_halfTurn (f : Word) : f ^^^ halfTurn = withSign (!signBit f) f := by
  rw [← withSign_xor_halfTurn, withSign_signBit]

theorem expField_withSign (neg : Bool) (f : Word) : expField (withSign neg f) = expField f := by
  apply BitVec.eq_of_toNat_eq
  rw [expField_toNat, expField_toNat, withSign_toNat]
  omega

theorem fracField_withSign (neg : Bool) (f : Word) : fracField (withSign neg f) = fracField f := by
  apply BitVec.eq_of_toNat_eq
  rw [fracField_toNat, fracField_toNat, withSign_toNat]
  omega

theorem signBit_withSign (neg : Bool) (f : Word) : signBit (withSign neg f) = neg := by
  rw [signBit_eq, withSign_toNat]
  cases neg with
  | false => rw [Bool.toNat_false, decide_eq_false_iff_not]; omega
  | true => rw [Bool.toNat_true, decide_eq_true_iff]; omega

theorem f2xMagnitude_withSign (off : Int) (neg : Bool) (f : Word) :
    f2xMagnitude off (withSign neg f) = f2xMagnitude off f := by
  rw [f2xMagnitude, significand, f2xShift, expField_withSign, fracField_withSign]
  rfl

theorem f2xNormal_opposite (off : Int) (f : Word) : f2xNormal off (withSign (!signBit f) f) = -f2xNormal off f := by
  rw [f2xNormal, f2xNormal, signBit_withSign, f2xMagnitude_withSign]
  cases signBit f with
  | false => rfl
  | true => exact (neg_neg _).symm

/-! ### The obligations -/

/-- Settles O14: the floor is the shifted significand, which a shift of 64 or more, or of -53 or less, empties. -/
theorem f2xOfNormalIsTheScaledFloor : Obligations.F2xOfNormalIsTheScaledFloor := by
  intro off s q h0 h1
  refine ⟨f2xNormal off q.a, (exec_answers_iff _ s q _).mpr (f2x_of_normal off h0 h1), ?_, fun h => ?_, fun h => ?_⟩
  · rw [← f2xMagnitude_eq_floor]
    exact f2xNormal_toNat off q.a
  · exact f2xNormal_eq_zero (f2xMagnitude_eq_zero_of_shift_ge (by rwa [f2xShift_eq]))
  · exact f2xNormal_eq_zero (f2xMagnitude_eq_zero_of_shift_le (by rwa [f2xShift_eq]))

/-- Settles O15: the remainder's scaled floor is the floor of O14 modulo 2^64. -/
theorem f2xWrapsModuloItsRange : Obligations.F2xWrapsModuloItsRange := by
  intro off s q h0 h1 hsign
  refine ⟨f2xNormal off q.a, (exec_answers_iff _ s q _).mpr (f2x_of_normal off h0 h1), ?_⟩
  rw [floor_scaled_remainder, ← f2xMagnitude_eq_floor, f2xNormal_of_positive off hsign]

/-- Settles O16: a zero gives the word 0, its own negation, and the sign of a normal float decides the negation. -/
theorem f2xOfNegatedFloatIsNegatedWord : Obligations.F2xOfNegatedFloatIsNegatedWord := by
  intro off s q hzero h1
  have hflip : q.a ^^^ 0x8000000000000000 = withSign (!signBit q.a) q.a := xor_halfTurn q.a
  simp only [exec_answers_iff, hflip]
  by_cases h0 : expField q.a = 0
  · exact ⟨0, f2x_of_zero off h0 (hzero h0),
      f2x_of_zero off (by rwa [expField_withSign]) (by rw [fracField_withSign, hzero h0])⟩
  · refine ⟨f2xNormal off q.a, f2x_of_normal off h0 h1, ?_⟩
    rw [← f2xNormal_opposite]
    exact f2x_of_normal off (by rwa [expField_withSign]) (by rwa [expField_withSign])

end Sys2Proof.Machine
end

section
/-! X2F over the rationals and the round trips of the converters (41_fixed_convert.md R96, R97): X2F keeps the top 53
significant bits of a word, exactly. -/

namespace Sys2Proof.Machine

/-! ### The fields of the float -/

theorem signBit_packFloat (s : Bool) (e : BitVec 11) (t : BitVec 52) : signBit (packFloat s e t) = s := by
  have he := e.isLt
  have ht := t.isLt
  rw [signBit_eq, packFloat_toNat]
  cases s with
  | false => rw [Bool.toNat_false, decide_eq_false_iff_not]; omega
  | true => rw [Bool.toNat_true, decide_eq_true_iff]; omega

theorem expField_packFloat (s : Bool) (e : BitVec 11) (t : BitVec 52) : expField (packFloat s e t) = e := by
  apply BitVec.eq_of_toNat_eq
  have he := e.isLt
  have ht := t.isLt
  rw [expField_toNat, packFloat_toNat]
  omega

theorem fracField_packFloat (s : Bool) (e : BitVec 11) (t : BitVec 52) : fracField (packFloat s e t) = t := by
  apply BitVec.eq_of_toNat_eq
  have ht := t.isLt
  rw [fracField_toNat, packFloat_toNat]
  omega

/-- A pattern is its three fields (00_scope.md R12). -/
theorem packFloat_fields (f : Word) : packFloat (signBit f) (expField f) (fracField f) = f := by
  apply BitVec.eq_of_toNat_eq
  have hf := f.isLt
  rw [packFloat_toNat, expField_toNat, fracField_toNat, signBit_eq]
  by_cases h : 2 ^ 63 ≤ f.toNat
  · rw [decide_eq_true h, Bool.toNat_true]
    omega
  · rw [decide_eq_false h, Bool.toNat_false]
    omega

section
variable {off : Int} {a : Word}

theorem toNat_ne_zero (ha : a ≠ 0) : a.toNat ≠ 0 := BitVec.toNat_ne.mp ha

theorem log2_word_le (ha : a ≠ 0) : Nat.log2 a.toNat ≤ 63 :=
  Nat.le_of_lt_succ ((Nat.log2_lt (toNat_ne_zero ha)).mpr a.isLt)

theorem x2f_of_ne_zero (off : Int) (ha : a ≠ 0) :
    x2f off a = packFloat false (BitVec.ofInt 11 (959 + off + Nat.log2 a.toNat))
      ((shl64 a (63 - Nat.log2 a.toNat)).extractLsb' 11 52) := by
  have hexp : 1023 + off - 1 - ((63 - Nat.log2 a.toNat : Nat) : Int) = 959 + off + Nat.log2 a.toNat := by
    have := log2_word_le ha
    omega
  rw [x2f, if_neg ha, clz64_eq ha, hexp]

theorem signBit_x2f (off : Int) (ha : a ≠ 0) : signBit (x2f off a) = false := by
  rw [x2f_of_ne_zero off ha, signBit_packFloat]

/-- At an admitted offset the exponent does not leave its field. -/
theorem expField_x2f (hoff : offsetInRange off = true) (ha : a ≠ 0) :
    ((expField (x2f off a)).toNat : Int) = 959 + off + Nat.log2 a.toNat := by
  obtain ⟨hlo, hhi⟩ := offsetInRange_iff.mp hoff
  have := log2_word_le ha
  rw [x2f_of_ne_zero off ha, expField_packFloat, BitVec.toNat_ofInt]
  omega

theorem expField_x2f_bounds (hoff : offsetInRange off = true) (ha : a ≠ 0) :
    831 ≤ (expField (x2f off a)).toNat ∧ (expField (x2f off a)).toNat ≤ 1149 := by
  obtain ⟨hlo, hhi⟩ := offsetInRange_iff.mp hoff
  have := log2_word_le ha
  have := expField_x2f hoff ha
  omega

/-- The word shifted up until its top 1 bit is bit 63. -/
theorem shifted_up_bounds (ha : a ≠ 0) :
    2 ^ 63 ≤ a.toNat * 2 ^ (63 - Nat.log2 a.toNat) ∧ a.toNat * 2 ^ (63 - Nat.log2 a.toNat) < 2 ^ 64 := by
  have hL := log2_word_le ha
  obtain ⟨hlo, hhi⟩ := (Nat.log2_eq_iff (toNat_ne_zero ha)).mp rfl
  have hpow : 2 ^ Nat.log2 a.toNat * 2 ^ (63 - Nat.log2 a.toNat) = 2 ^ 63 := by rw [← pow_add, Nat.add_sub_cancel' hL]
  constructor
  · rw [← hpow]
    exact Nat.mul_le_mul_right _ hlo
  · calc a.toNat * 2 ^ (63 - Nat.log2 a.toNat)
        < 2 ^ (Nat.log2 a.toNat + 1) * 2 ^ (63 - Nat.log2 a.toNat) := Nat.mul_lt_mul_of_pos_right hhi (by positivity)
      _ = 2 ^ 64 := by rw [pow_succ, mul_right_comm, hpow]; norm_num

/-- The significand is the top 53 bits of the word shifted up: bit 63 is the hidden 1 (41_fixed_convert.md R92). -/
theorem significand_x2f (off : Int) (ha : a ≠ 0) :
    (significand (x2f off a)).toNat = a.toNat * 2 ^ (63 - Nat.log2 a.toNat) / 2 ^ 11 := by
  obtain ⟨hlo, hhi⟩ := shifted_up_bounds ha
  rw [significand_toNat_eq_fracField, x2f_of_ne_zero off ha, fracField_packFloat, BitVec.extractLsb'_toNat,
    Nat.shiftRight_eq_div_pow, shl64_toNat, Nat.mod_eq_of_lt hhi]
  omega

/-- With at least 53 significant bits the significand is the word without those below the top 53. -/
theorem significand_x2f_of_ge (off : Int) (ha : a ≠ 0) (h : 52 ≤ Nat.log2 a.toNat) :
    (significand (x2f off a)).toNat = a.toNat / 2 ^ (Nat.log2 a.toNat - 52) := by
  have hpow : 2 ^ 11 = 2 ^ (Nat.log2 a.toNat - 52) * 2 ^ (63 - Nat.log2 a.toNat) := by
    have := log2_word_le ha
    rw [← pow_add]
    congr 1
    omega
  rw [significand_x2f off ha, hpow, Nat.mul_div_mul_right _ _ (by positivity)]

/-- With fewer the significand is the word with zeros behind it. -/
theorem significand_x2f_of_le (off : Int) (ha : a ≠ 0) (h : Nat.log2 a.toNat ≤ 52) :
    (significand (x2f off a)).toNat = a.toNat * 2 ^ (52 - Nat.log2 a.toNat) := by
  have hpow : 2 ^ (63 - Nat.log2 a.toNat) = 2 ^ (52 - Nat.log2 a.toNat) * 2 ^ 11 := by
    rw [← pow_add]
    congr 1
    omega
  rw [significand_x2f off ha, hpow, ← mul_assoc, Nat.mul_div_cancel _ (by positivity)]

end

/-! ### The top 53 bits -/

/-- A word with the bits below its top 53 significant ones cleared (41_fixed_convert.md R97). -/
def topBits53 (a : Word) : Nat := a.toNat - a.toNat % 2 ^ (Nat.log2 a.toNat - 52)

theorem topBits53_le (a : Word) : topBits53 a ≤ a.toNat := Nat.sub_le _ _

theorem topBits53_of_dvd {a : Word} (h : 2 ^ (Nat.log2 a.toNat - 52) ∣ a.toNat) : topBits53 a = a.toNat := by
  rw [topBits53, Nat.mod_eq_zero_of_dvd h, Nat.sub_zero]

theorem topBits53_of_le {a : Word} (h : Nat.log2 a.toNat ≤ 52) : topBits53 a = a.toNat :=
  topBits53_of_dvd (by rw [Nat.sub_eq_zero_of_le h, pow_zero]; exact one_dvd _)

/-- The significand in its place: scaled by the position of its lowest bit it is the top 53 bits of the word. -/
theorem significand_x2f_scaled (off : Int) {a : Word} (ha : a ≠ 0) :
    ((significand (x2f off a)).toNat : ℚ) * 2 ^ ((Nat.log2 a.toNat : Int) - 52) = topBits53 a := by
  obtain h | h := le_total 52 (Nat.log2 a.toNat)
  · obtain ⟨k, hk⟩ := Nat.exists_eq_add_of_le' h
    have hexp : (Nat.log2 a.toNat : Int) - 52 = (k : Nat) := by omega
    rw [significand_x2f_of_ge off ha h, topBits53, ← Nat.div_mul_self_eq_mod_sub_self, hexp, hk, Nat.add_sub_cancel]
    push_cast
    rfl
  · obtain ⟨k, hk⟩ := Nat.exists_eq_add_of_le h
    have hexp : (Nat.log2 a.toNat : Int) - 52 = -(k : Nat) := by omega
    have hsub : 52 - Nat.log2 a.toNat = k := by omega
    rw [significand_x2f_of_le off ha h, topBits53_of_le h, hexp, hsub, zpow_neg, zpow_natCast]
    push_cast
    exact mul_inv_cancel_right₀ (by positivity) _

/-- The bits below the top 53 are less than one unit of the lowest of these. -/
theorem lt_topBits53_add (a : Word) :
    (a.toNat : ℚ) < topBits53 a + 2 ^ ((Nat.log2 a.toNat : Int) - 52) := by
  obtain h | h := le_total 52 (Nat.log2 a.toNat)
  · obtain ⟨k, hk⟩ := Nat.exists_eq_add_of_le' h
    have hexp : (Nat.log2 a.toNat : Int) - 52 = (k : Nat) := by omega
    have hmod : a.toNat % 2 ^ k < 2 ^ k := Nat.mod_lt _ (by positivity)
    have hlt : a.toNat < topBits53 a + 2 ^ k := by
      rw [topBits53, hk, Nat.add_sub_cancel]
      omega
    rw [hexp, zpow_natCast]
    exact_mod_cast hlt
  · rw [topBits53_of_le h]
    exact lt_add_of_pos_right _ (by positivity)

/-! ### The value of the float -/

section
variable {off : Int} {a : Word} (hoff : offsetInRange off = true) (ha : a ≠ 0)
include hoff ha

/-- The unit in the last place of the float, in units of the word. -/
theorem x2f_ulp : (2 : ℚ) ^ (((expField (x2f off a)).toNat : Int) - 1075) =
    2 ^ ((Nat.log2 a.toNat : Int) - 52) * 2 ^ (off - 64) := by
  rw [expField_x2f hoff ha, ← zpow_add₀ two_ne_zero]
  congr 1
  ring

theorem normalMagnitude_x2f : normalMagnitude (x2f off a) = topBits53 a * 2 ^ (off - 64) := by
  rw [normalMagnitude_eq, x2f_ulp hoff ha, ← mul_assoc, significand_x2f_scaled off ha]

theorem normalMagnitude_x2f_le : normalMagnitude (x2f off a) ≤ fixedValue off a := by
  rw [normalMagnitude_x2f hoff ha, fixedValue]
  exact mul_le_mul_of_nonneg_right (Nat.cast_le.mpr (topBits53_le a)) (by positivity)

theorem fixedValue_lt_x2f_add_ulp :
    fixedValue off a < normalMagnitude (x2f off a) + 2 ^ (((expField (x2f off a)).toNat : Int) - 1075) := by
  rw [normalMagnitude_x2f hoff ha, x2f_ulp hoff ha, ← add_mul, fixedValue]
  exact mul_lt_mul_of_pos_right (lt_topBits53_add a) (by positivity)

theorem normalMagnitude_x2f_of_dvd (h : 2 ^ (Nat.log2 a.toNat - 52) ∣ a.toNat) :
    normalMagnitude (x2f off a) = fixedValue off a := by
  rw [normalMagnitude_x2f hoff ha, topBits53_of_dvd h, fixedValue]

theorem f2x_x2f : f2x off (x2f off a) = plain (BitVec.ofNat 64 (topBits53 a)) := by
  obtain ⟨hlo, hhi⟩ := expField_x2f_bounds hoff ha
  have h0 : expField (x2f off a) ≠ 0 := fun h => by rw [h] at hlo; exact absurd hlo (by decide)
  have h1 : expField (x2f off a) ≠ 2047 := fun h => by rw [h] at hhi; exact absurd hhi (by decide)
  have hscaled : normalMagnitude (x2f off a) * 2 ^ (64 - off) = topBits53 a := by
    rw [normalMagnitude_x2f hoff ha, mul_assoc, ← zpow_add₀ two_ne_zero, sub_add_sub_cancel, sub_self, zpow_zero, mul_one]
  have hmag := f2xMagnitude_eq_floor off (x2f off a)
  rw [hscaled, Int.floor_natCast] at hmag
  rw [f2x_of_normal off h0 h1, f2xNormal_of_positive off (signBit_x2f off ha)]
  refine congrArg plain (BitVec.eq_of_toNat_eq ?_)
  rw [BitVec.toNat_ofNat]
  exact_mod_cast hmag

end

/-! ### From a float and back -/

/-- The exponents of the floats from 2^(off - 12) to below 2^off: their significand is shifted left by 0 to 11. -/
theorem f2xShift_bounds {off : Int} {f : Word} (hlo : 2 ^ (off - 12) ≤ normalMagnitude f)
    (hhi : normalMagnitude f < 2 ^ off) : 0 ≤ f2xShift off f ∧ f2xShift off f ≤ 11 := by
  have hmlo : (2 : ℚ) ^ (52 : Int) ≤ (significand f).toNat := by exact_mod_cast (significand_bounds f).1
  have hmhi : ((significand f).toNat : ℚ) < 2 ^ (53 : Int) := by exact_mod_cast (significand_bounds f).2
  have hpos : (0 : ℚ) < 2 ^ (((expField f).toNat : Int) - 1075) := by positivity
  rw [normalMagnitude_eq] at hlo hhi
  have hupper := (mul_le_mul_of_nonneg_right hmlo hpos.le).trans_lt hhi
  have hlower := hlo.trans_lt (mul_lt_mul_of_pos_right hmhi hpos)
  rw [← zpow_add₀ two_ne_zero, zpow_lt_zpow_iff_right₀ one_lt_two] at hupper hlower
  rw [f2xShift_eq]
  omega

section
variable {off : Int} {f : Word} {k : Nat} (hk : f2xShift off f = k)
include hk

/-- A significand shifted left by at most 11 keeps all its bits. -/
theorem f2xMagnitude_toNat_of_shift_le (hle : k ≤ 11) : (f2xMagnitude off f).toNat = (significand f).toNat * 2 ^ k := by
  have hfits : (significand f).toNat * 2 ^ k < 2 ^ 64 :=
    calc (significand f).toNat * 2 ^ k
        < 2 ^ 53 * 2 ^ 11 :=
          Nat.mul_lt_mul_of_lt_of_le (significand_bounds f).2 (Nat.pow_le_pow_right (by decide) hle) (by positivity)
      _ = 2 ^ 64 := by norm_num
  rw [f2xMagnitude, hk, shiftBy_toNat, if_pos (Int.natCast_nonneg k), Int.toNat_natCast, Nat.mod_eq_of_lt hfits]

theorem log2_f2xMagnitude (hle : k ≤ 11) : Nat.log2 (f2xMagnitude off f).toNat = 52 + k := by
  obtain ⟨hlo, hhi⟩ := significand_bounds f
  have hne : (significand f).toNat * 2 ^ k ≠ 0 := (Nat.mul_pos (by omega) (by positivity)).ne'
  rw [f2xMagnitude_toNat_of_shift_le hk hle, Nat.log2_eq_iff hne, pow_add, add_right_comm, pow_add]
  exact ⟨Nat.mul_le_mul_right _ hlo, Nat.mul_lt_mul_of_pos_right hhi (by positivity)⟩

/-- X2F finds the exponent again in the position of the top 1 bit, and the fraction below it. -/
theorem x2f_f2xMagnitude (hoff : offsetInRange off = true) (hsign : signBit f = false) (hle : k ≤ 11) :
    x2f off (f2xMagnitude off f) = f := by
  have hlog := log2_f2xMagnitude hk hle
  have hne : f2xMagnitude off f ≠ 0 := by
    intro h
    rw [h] at hlog
    change 0 = _ at hlog
    omega
  have hexp : expField (x2f off (f2xMagnitude off f)) = expField f := by
    have he := expField_x2f hoff hne
    rw [f2xShift_eq] at hk
    apply BitVec.eq_of_toNat_eq
    omega
  have hfrac : fracField (x2f off (f2xMagnitude off f)) = fracField f := by
    have hsig := significand_x2f_of_ge off hne (by omega)
    rw [hlog, f2xMagnitude_toNat_of_shift_le hk hle, Nat.add_sub_cancel_left, Nat.mul_div_cancel _ (by positivity),
      significand_toNat_eq_fracField, significand_toNat_eq_fracField] at hsig
    exact BitVec.eq_of_toNat_eq (Nat.add_left_cancel hsig)
  rw [← packFloat_fields (x2f off (f2xMagnitude off f)), signBit_x2f off hne, hexp, hfrac, ← hsign, packFloat_fields]

end

/-! ### The obligations -/

/-- Settles O18: the float's value is the top 53 bits of the word, at the word's offset. -/
theorem x2fIsNormalAndTruncates : Obligations.X2fIsNormalAndTruncates := by
  intro off s q hoff ha
  obtain ⟨hlo, hhi⟩ := expField_x2f_bounds hoff ha
  exact ⟨x2f off q.a, exec_withOldest (.x2f off) s q, hlo, hhi, signBit_x2f off ha, normalMagnitude_x2f_le hoff ha,
    fixedValue_lt_x2f_add_ulp hoff ha, normalMagnitude_x2f_of_dvd hoff ha⟩

/-- Settles O19: 0 goes to +0.0 and back, and the value of another word's float is its top 53 bits. -/
theorem f2xOfX2fKeepsTheTop53Bits : Obligations.F2xOfX2fKeepsTheTop53Bits := by
  intro off s q hoff
  refine ⟨x2f off q.a, exec_withOldest (.x2f off) s q, (exec_answers_iff _ s _ _).mpr ?_⟩
  by_cases ha : q.a = 0
  · have hx : x2f off q.a = 0 := by rw [x2f, if_pos ha]
    change f2x off (x2f off q.a) = _
    rw [hx, ha, f2x_of_zero off (by decide) (by decide)]
    rfl
  · exact f2x_x2f hoff ha

/-- Settles O20: in this range F2X shifts the significand left by 0 to 11. -/
theorem x2fOfF2xIsExactInTheTopRange : Obligations.X2fOfF2xIsExactInTheTopRange := by
  intro off s q hoff h0 h1 hsign hlo hhi
  obtain ⟨hshift0, hshift11⟩ := f2xShift_bounds hlo hhi
  obtain ⟨k, hk⟩ := Int.eq_ofNat_of_zero_le hshift0
  refine ⟨f2xMagnitude off q.a, (exec_answers_iff _ s q _).mpr ?_, (exec_answers_iff _ s _ _).mpr ?_⟩
  · exact (f2x_of_normal off h0 h1).trans (congrArg plain (f2xNormal_of_positive off hsign))
  · exact congrArg plain (x2f_f2xMagnitude hk hoff hsign (by omega))

end Sys2Proof.Machine
end
